-- ==== Sys2Proof/Word.lean ====
section
/-! DEFINITION. The widths of `00_scope.md` R6, as types. -/

namespace Sys2Proof

/-- A key-entry register or a scalar operand: `KW` = 16 bits, signed two's complement (R6, D5). -/
abbrev KeyWord := BitVec 16

/-- A residue or digit: `RESW` = 5 bits (R6). Values 26 to 31 occur only as a `DECD` operand. -/
abbrev Digit := BitVec 5

/-- A character: `CHW` = 8 bits (R6, D6). -/
abbrev Char8 := BitVec 8

/-- A command word: `CMDW` = 40 bits (R6, R70). -/
abbrev CmdWord := BitVec 40

/-- A response word: `RSPW` = 44 bits (R6, R75). -/
abbrev RspWord := BitVec 44

/-- An ordered pair of digits, first element first: the unit of transformation (R15). -/
abbrev DigitPair := Digit × Digit

end Sys2Proof
end

