-- ==== Sys2Proof/Syntax.lean ====
section
/-! DEFINITION. The 21 commands of the HC26 command set, version 1: one constructor per row of the opcode map
(`30_encoding.md` R72). An operand has the width its form gives it (R71), so every term is a command of the table. -/

namespace Sys2Proof

/-- A command. The operand forms are those of R71: `s16` a `KeyWord`, `u5` a `Digit`, `u8` a `Char8`. -/
inductive Instr where
  /-- read the status register (`45_system.md` R210) -/
  | rdsr
  /-- canonical residue modulo 26 (`40_modular_arithmetic.md` R107) -/
  | cmod (n : KeyWord)
  /-- greatest common divisor of the absolute values (R108) -/
  | gcd (a b : KeyWord)
  /-- modular multiplicative inverse (R109) -/
  | minv (a : KeyWord)
  /-- modular product (R110) -/
  | mulm (a b : KeyWord)
  /-- decode one digit to its letter (`41_codec.md` R128) -/
  | decd (d : Digit)
  /-- load key entry (1,1) (`42_key_validator.md` R140) -/
  | ldk11 (v : KeyWord)
  /-- load key entry (1,2) (R149) -/
  | ldk12 (v : KeyWord)
  /-- load key entry (2,1) (R150) -/
  | ldk21 (v : KeyWord)
  /-- load key entry (2,2) (R151) -/
  | ldk22 (v : KeyWord)
  /-- raw determinant of the loaded key (R144) -/
  | det
  /-- invertibility test of the loaded key (R145) -/
  | isinv
  /-- entry (1,1) of the inverse (`43_matrix_inverter.md` R164) -/
  | inv11
  /-- entry (1,2) of the inverse (R167) -/
  | inv12
  /-- entry (2,1) of the inverse (R168) -/
  | inv21
  /-- entry (2,2) of the inverse (R169) -/
  | inv22
  /-- open an encrypt call (`44_cipher_engine.md` R177) -/
  | stenc
  /-- open a decrypt call (R178) -/
  | stdec
  /-- open a preview call (R179) -/
  | stprv
  /-- present the next character (R180) -/
  | putc (ch : Char8)
  /-- end of the text and of the call (R181) -/
  | fin
deriving DecidableEq, Repr

end Sys2Proof
end

