-- ==== Sys2Proof/WellFormed.lean ====
section
/-! DEFINITION. Which command words are commands: the fields of a word (`30_encoding.md` R70), the three checks of
R72 and R73 on them, and the opcode map as the rows of masks and matches that R72 refers to. Every term of `Instr`
is a command, since its operands have exactly the widths of R71; what can be ill-formed is a word. -/

namespace Sys2Proof

/-- The three fields of a command word (R70). -/
structure CmdFields where
  /-- `OP`, bits 39:32 -/
  op : BitVec 8
  /-- `A`, bits 31:16 -/
  a : BitVec 16
  /-- `B`, bits 15:0 -/
  b : BitVec 16
deriving DecidableEq, Repr

/-- The operand forms of R71. -/
inductive OperandForm where
  | s16InB
  | s16InAB
  | u5InB
  | u8InB
  | none
deriving DecidableEq, Repr

/-- The form of each defined opcode; `none` for the 235 reserved values of `OP` (R71, R72, R74). -/
def formOf (op : BitVec 8) : Option OperandForm :=
  if op ∈ [0x10#8, 0x12#8, 0x30#8, 0x31#8, 0x32#8, 0x33#8] then some .s16InB
  else if op ∈ [0x11#8, 0x13#8] then some .s16InAB
  else if op = 0x20#8 then some .u5InB
  else if op = 0x54#8 then some .u8InB
  else if op ∈ [0x01#8, 0x34#8, 0x35#8, 0x40#8, 0x41#8, 0x42#8, 0x43#8, 0x50#8, 0x51#8, 0x52#8, 0x55#8] then
    some OperandForm.none
  else Option.none

/-- Check 1: the opcode is one of the 21 defined ones (R72). -/
def opDefined (f : CmdFields) : Bool := (formOf f.op).isSome

/-- Check 2: `A` is zero unless the form has two operands (R73). -/
def aClear (f : CmdFields) : Bool :=
  match formOf f.op with
  | some .s16InAB => true
  | _ => f.a == 0#16

/-- Check 3: the bits of `B` that the form does not assign to an operand are zero (R73). -/
def bClear (f : CmdFields) : Bool :=
  match formOf f.op with
  | some .s16InB => true
  | some .s16InAB => true
  | some .u5InB => f.b.extractLsb' 5 11 == 0#11
  | some .u8InB => f.b.extractLsb' 8 8 == 0#8
  | _ => f.b == 0#16

/-- The fields are those of a command: all three checks pass (R74). -/
def CmdFields.wellFormed (f : CmdFields) : Bool := opDefined f && aClear f && bClear f

/-- One row of the opcode map: "a word `w` is the command of a row iff `(w AND mask) = match`" (R72). -/
structure OpRow where
  mnemonic : String
  pattern : CmdWord
  mask : CmdWord
deriving DecidableEq, Repr

/-- The word is the command of the row (R72). -/
def OpRow.hits (r : OpRow) (w : CmdWord) : Bool := w &&& r.mask == r.pattern

/-- A row of one of the five forms: the mask has a 1 wherever R71 assigns no operand bit. -/
def OpRow.ofForm (mnemonic : String) (op : BitVec 8) (mask : CmdWord) : OpRow :=
  { mnemonic, pattern := op ++ 0#32, mask }

/-- The opcode map, row by row in the table's order (R72). -/
def opcodeTable : List OpRow :=
  [ .ofForm "RDSR" 0x01#8 0xFFFFFFFFFF#40,
    .ofForm "CMOD" 0x10#8 0xFFFFFF0000#40,
    .ofForm "GCD" 0x11#8 0xFF00000000#40,
    .ofForm "MINV" 0x12#8 0xFFFFFF0000#40,
    .ofForm "MULM" 0x13#8 0xFF00000000#40,
    .ofForm "DECD" 0x20#8 0xFFFFFFFFE0#40,
    .ofForm "LDK11" 0x30#8 0xFFFFFF0000#40,
    .ofForm "LDK12" 0x31#8 0xFFFFFF0000#40,
    .ofForm "LDK21" 0x32#8 0xFFFFFF0000#40,
    .ofForm "LDK22" 0x33#8 0xFFFFFF0000#40,
    .ofForm "DET" 0x34#8 0xFFFFFFFFFF#40,
    .ofForm "ISINV" 0x35#8 0xFFFFFFFFFF#40,
    .ofForm "INV11" 0x40#8 0xFFFFFFFFFF#40,
    .ofForm "INV12" 0x41#8 0xFFFFFFFFFF#40,
    .ofForm "INV21" 0x42#8 0xFFFFFFFFFF#40,
    .ofForm "INV22" 0x43#8 0xFFFFFFFFFF#40,
    .ofForm "STENC" 0x50#8 0xFFFFFFFFFF#40,
    .ofForm "STDEC" 0x51#8 0xFFFFFFFFFF#40,
    .ofForm "STPRV" 0x52#8 0xFFFFFFFFFF#40,
    .ofForm "PUTC" 0x54#8 0xFFFFFFFF00#40,
    .ofForm "FIN" 0x55#8 0xFFFFFFFFFF#40 ]

/-- The mnemonic of a command, as the opcode map spells it (R72). -/
def Instr.mnemonic : Instr → String
  | .rdsr => "RDSR"
  | .cmod _ => "CMOD"
  | .gcd _ _ => "GCD"
  | .minv _ => "MINV"
  | .mulm _ _ => "MULM"
  | .decd _ => "DECD"
  | .ldk11 _ => "LDK11"
  | .ldk12 _ => "LDK12"
  | .ldk21 _ => "LDK21"
  | .ldk22 _ => "LDK22"
  | .det => "DET"
  | .isinv => "ISINV"
  | .inv11 => "INV11"
  | .inv12 => "INV12"
  | .inv21 => "INV21"
  | .inv22 => "INV22"
  | .stenc => "STENC"
  | .stdec => "STDEC"
  | .stprv => "STPRV"
  | .putc _ => "PUTC"
  | .fin => "FIN"

/-- The row of a command: the first row of the map that bears its mnemonic. -/
def Instr.row (i : Instr) : Option OpRow := opcodeTable.find? fun r => r.mnemonic == i.mnemonic

end Sys2Proof
end

