-- ==== Sys2Proof/Decode.lean ====
section
/-! DEFINITION. The decoder, total on the 2^40 command words (`30_encoding.md` R74), and the encoder (R70, R71, R85). -/

namespace Sys2Proof

/-- The field `OP`, bits 39:32 (R70). -/
def opField (w : CmdWord) : BitVec 8 := w.extractLsb' 32 8

/-- The field `A`, bits 31:16 (R70). -/
def aField (w : CmdWord) : BitVec 16 := w.extractLsb' 16 16

/-- The field `B`, bits 15:0 (R70). -/
def bField (w : CmdWord) : BitVec 16 := w.extractLsb' 0 16

/-- The three fields of a word (R70). -/
def fieldsOf (w : CmdWord) : CmdFields := { op := opField w, a := aField w, b := bField w }

/-- Why a word is no command (R74). Both kinds are answered alike, `ILLEGAL_COMMAND`. -/
inductive DecodeReject where
  /-- one of the 235 values of `OP` that the opcode map does not define (X1) -/
  | reservedOpcode (op : BitVec 8)
  /-- a defined `OP` with a non-zero must-be-zero bit in `A` or `B` (R73, X2) -/
  | mustBeZero (op : BitVec 8)
deriving DecidableEq, Repr

/-- What the decoder answers: a command, or why there is none. -/
abbrev Decoded := Except DecodeReject Instr

/-- Form `s16` in `B`: `A` must be zero (R71). -/
def formS16 (f : CmdFields) (i : KeyWord → Instr) : Decoded :=
  if f.a = 0#16 then .ok (i f.b) else .error (.mustBeZero f.op)

/-- Form `s16` in `A` and `B`: no must-be-zero bit (R71). -/
def formS16Pair (f : CmdFields) (i : KeyWord → KeyWord → Instr) : Decoded := .ok (i f.a f.b)

/-- Form `u5` in `B`: `CW[31:5]` must be zero (R71). -/
def formU5 (f : CmdFields) (i : Digit → Instr) : Decoded :=
  if f.a = 0#16 ∧ f.b.extractLsb' 5 11 = 0#11 then .ok (i (f.b.extractLsb' 0 5)) else .error (.mustBeZero f.op)

/-- Form `u8` in `B`: `CW[31:8]` must be zero (R71). -/
def formU8 (f : CmdFields) (i : Char8 → Instr) : Decoded :=
  if f.a = 0#16 ∧ f.b.extractLsb' 8 8 = 0#8 then .ok (i (f.b.extractLsb' 0 8)) else .error (.mustBeZero f.op)

/-- No operand: `CW[31:0]` must be zero (R71). -/
def formNone (f : CmdFields) (i : Instr) : Decoded :=
  if f.a = 0#16 ∧ f.b = 0#16 then .ok i else .error (.mustBeZero f.op)

/-- The opcode map on the fields of a word (R72). -/
def decodeFields (f : CmdFields) : Decoded :=
  match f.op with
  | 0x01#8 => formNone f .rdsr
  | 0x10#8 => formS16 f .cmod
  | 0x11#8 => formS16Pair f .gcd
  | 0x12#8 => formS16 f .minv
  | 0x13#8 => formS16Pair f .mulm
  | 0x20#8 => formU5 f .decd
  | 0x30#8 => formS16 f .ldk11
  | 0x31#8 => formS16 f .ldk12
  | 0x32#8 => formS16 f .ldk21
  | 0x33#8 => formS16 f .ldk22
  | 0x34#8 => formNone f .det
  | 0x35#8 => formNone f .isinv
  | 0x40#8 => formNone f .inv11
  | 0x41#8 => formNone f .inv12
  | 0x42#8 => formNone f .inv21
  | 0x43#8 => formNone f .inv22
  | 0x50#8 => formNone f .stenc
  | 0x51#8 => formNone f .stdec
  | 0x52#8 => formNone f .stprv
  | 0x54#8 => formU8 f .putc
  | 0x55#8 => formNone f .fin
  | op => .error (.reservedOpcode op)

/-- The decoder: every word is either exactly one of the 21 commands or illegal (R74). The state of the engine has
no part in it (R84). -/
def decode (w : CmdWord) : Decoded := decodeFields (fieldsOf w)

/-- A command word from its fields, `OP` high (R70). -/
def packFields (op : BitVec 8) (a b : BitVec 16) : CmdWord := op ++ a ++ b

/-- The encoder: "The encoding of a line is `{OP, A, B}` with every field not named set to 0" (R85, R71, R72). -/
def encode : Instr → CmdWord
  | .rdsr => packFields 0x01#8 0#16 0#16
  | .cmod n => packFields 0x10#8 0#16 n
  | .gcd a b => packFields 0x11#8 a b
  | .minv a => packFields 0x12#8 0#16 a
  | .mulm a b => packFields 0x13#8 a b
  | .decd d => packFields 0x20#8 0#16 (d.setWidth 16)
  | .ldk11 v => packFields 0x30#8 0#16 v
  | .ldk12 v => packFields 0x31#8 0#16 v
  | .ldk21 v => packFields 0x32#8 0#16 v
  | .ldk22 v => packFields 0x33#8 0#16 v
  | .det => packFields 0x34#8 0#16 0#16
  | .isinv => packFields 0x35#8 0#16 0#16
  | .inv11 => packFields 0x40#8 0#16 0#16
  | .inv12 => packFields 0x41#8 0#16 0#16
  | .inv21 => packFields 0x42#8 0#16 0#16
  | .inv22 => packFields 0x43#8 0#16 0#16
  | .stenc => packFields 0x50#8 0#16 0#16
  | .stdec => packFields 0x51#8 0#16 0#16
  | .stprv => packFields 0x52#8 0#16 0#16
  | .putc ch => packFields 0x54#8 0#16 (ch.setWidth 16)
  | .fin => packFields 0x55#8 0#16 0#16

/-- The one command word held by the low `nbits` bits of `w`, bit 0 of `w` being bit 0 of the word; bits above
`nbits` are 0, and a command is never longer than 40 bits (R84; DEDUCED, log entry 8; safe). -/
def wordOfBits (nbits w : Nat) : CmdWord := BitVec.ofNat 40 (w % 2 ^ nbits)

/-- The command the decoder reads from `nbits` bits of `w`; none where it rejects them. -/
def decodeTableWord (nbits w : Nat) : Option Instr := (decode (wordOfBits nbits w)).toOption

end Sys2Proof
end

