-- ==== Sys2Proof/Config.lean ====
section
/-! DEFINITION. The parameters that `00_scope.md` R5 fixes. The spec leaves none to an implementation and no value
open, so this file holds no opaque constant. -/

namespace Sys2Proof.Config

/-- `MOD`: "Modulus: fixed constant = 26 (alphabet size)" (R5). -/
abbrev modulus : Int := 26

/-- `PAD`: "the padding digit 23 ('X')" (R5). -/
abbrev padDigit : Digit := 23#5

end Sys2Proof.Config
end

