-- ==== Sys2Proof/Machine/State.lean ====
section
/-! DEFINITION. The state of the machine: the engine's 99 bits (`10_state.md`), the response port and the host's
moves still to come; the outcomes of a step; the state after reset. -/

namespace Sys2Proof.Machine

/-- The register `FSM` (`10_state.md` R25). The value 3 is never held (X5; DEDUCED, log entry 9; safe). -/
inductive Fsm where
  /-- 0: no call open -/
  | idle
  /-- 1: a session is open -/
  | run
  /-- 2: an `InternalInconsistency` has occurred; terminal until reset -/
  | fault
deriving DecidableEq, Repr

/-- The register `MODE` (R26). The value 3 is never held (X5; DEDUCED, log entry 9; safe). -/
inductive Mode where
  /-- 0: the call is `encrypt` -/
  | enc
  /-- 1: the call is `decrypt` -/
  | dec
  /-- 2: the call is `previewPairs` -/
  | prv
deriving DecidableEq, Repr

/-- The status codes (`30_encoding.md` R76). Codes 8 to 15 are never produced (X3). -/
inductive Status where
  | ok
  | missingKey
  | nonInvertibleKey
  | emptyInput
  | internalInconsistency
  | noInverse
  | illegalCommand
  | badState
deriving DecidableEq, Repr

/-- A 2×2 matrix of integers `[[a, b], [c, d]]` (`10_state.md` R20, `42_key_validator.md` R141). -/
structure Mat2 where
  a : Int
  b : Int
  c : Int
  d : Int
deriving DecidableEq, Repr

/-- The complete state of the engine: "There is no other state" (`10_state.md`). -/
structure Engine where
  /-- `K11` to `K22`: the key entries as loaded, not reduced (R20) -/
  k11 : KeyWord
  k12 : KeyWord
  k21 : KeyWord
  k22 : KeyWord
  /-- `KV`: bit 0 `KV11`, bit 1 `KV12`, bit 2 `KV21`, bit 3 `KV22` (R21) -/
  kv : BitVec 4
  /-- `FSM` (R25) -/
  fsm : Fsm
  /-- `MODE` (R26) -/
  mode : Mode
  /-- `M11` to `M22`: the working matrix (R27) -/
  m11 : Digit
  m12 : Digit
  m21 : Digit
  m22 : Digit
  /-- `FIRST`: the first digit of the pair under construction (R28) -/
  first : Digit
  /-- `HALF`: a first digit is held (R29) -/
  half : Bool
  /-- `ANYCHAR`: a `PUTC` has executed in this session (R30) -/
  anychar : Bool
deriving DecidableEq, Repr

/-- The moves of the host (`00_scope.md` R7). -/
inductive HostMove where
  /-- present a command word: `cmd_valid = 1`, `cmd = w` (`20_memory.md` R51) -/
  | command (w : CmdWord)
  /-- take a response word: `rsp_ready = 1` (R51) -/
  | take
  /-- apply `rst` (`70_reset_and_hazards.md` R250) -/
  | reset
deriving DecidableEq, Repr

/-- The machine: the engine, its response port, and the host's moves still to come. -/
structure State where
  /-- the 99 bits of `10_state.md` -/
  engine : Engine
  /-- the response port: the word offered and not yet taken, `none` where `rsp_valid = 0` (`20_memory.md` R51, R52) -/
  rsp : Option RspWord
  /-- the MODEL's own field: the host's moves still to come, oldest first (DESIGN CHOICE, log entry 1; safe) -/
  host : List HostMove
deriving DecidableEq, Repr

/-- The reasons a step can stop with a fault: none. Every accepted command is answered in every state
(`70_reset_and_hazards.md` R261), and the fatal error kind is a state of the engine, `FAULT`, not a stop
(`60_exceptions.md` R228). Safe: nothing raises a fault. -/
inductive Fault where
deriving DecidableEq, Repr

/-- The reasons a step can be refused. -/
inductive Refusal where
  /-- raised by an arm of `exec` whose instruction has no meaning yet (safe: the machine stops). No arm raises it. -/
  | notModelled (mnemonic : String)
deriving DecidableEq, Repr

/-- What a step or a meaning answers. -/
abbrev Outcome := Host.Outcome State Fault Refusal

/-- The engine right after reset: every register 0 (`10_state.md` R34, `70_reset_and_hazards.md` R251). -/
def Engine.reset : Engine :=
  { k11 := 0, k12 := 0, k21 := 0, k22 := 0, kv := 0, fsm := .idle, mode := .enc,
    m11 := 0, m12 := 0, m21 := 0, m22 := 0, first := 0, half := false, anychar := false }

/-- The machine right after reset: the engine as R251 says, `rsp_valid` 0 (R252), and no host move placed
(DESIGN CHOICE, log entry 1). -/
def State.reset : State := { engine := Engine.reset, rsp := none, host := [] }

end Sys2Proof.Machine
end

