-- ==== Sys2Proof/Machine/Arithmetic.lean ====
section
/-! DEFINITION. The functions of the modular multiplier and inverse engine, of the key validator, of the matrix
inverter and of the pair transform, on integers (`40_modular_arithmetic.md` R100 to R105, `42_key_validator.md` R141,
R142, `43_matrix_inverter.md` R160, `44_cipher_engine.md` R176). Each is the rule's own pseudocode. -/

namespace Sys2Proof.Machine

open Sys2Proof.Config (modulus)

/-- `trem(n, m)`: the truncating remainder, whose sign is the sign of `n` (`00_scope.md` R12). -/
def trem (n m : Int) : Int := Int.tmod n m

/-- `cmod26(n) = trem(trem(n, 26) + 26, 26)` (R100). -/
def cmod26 (n : Int) : Int := trem (trem n modulus + modulus) modulus

/-- The loop `while y ≠ 0: (x, y) <- (y, trem(x, y))` (R102), run for at most `fuel` turns. -/
def euclidLoop : Nat → Int → Int → Int
  | 0, x, _ => x
  | fuel + 1, x, y => if y = 0 then x else euclidLoop fuel y (trem x y)

/-- `gcd(a, b)`: Euclid's algorithm on absolute values (R102). `|b|` turns are enough, since `y` strictly decreases. -/
def euclidGcd (a b : Int) : Int := euclidLoop b.natAbs a.natAbs b.natAbs

/-- The candidates `1, 2, …, 25` of the inverse search (R104). -/
def inverseCandidates : List Int := (List.range' 1 25).map fun k => (k : Int)

/-- `minv26(a)`: the first `x` in 1 … 25 with `trem(cmod26(a) * x, 26) = 1` (R104). -/
def minv26 (a : Int) : Option Int :=
  let r := cmod26 a
  inverseCandidates.find? fun x => trem (r * x) modulus == 1

/-- `mulm26(a, b) = cmod26(a * b)` (R105). -/
def mulm26 (a b : Int) : Int := cmod26 (a * b)

/-- `det(K) = a*d − b*c`, unreduced (R141). -/
def det (k : Mat2) : Int := k.a * k.d - k.b * k.c

/-- `isInvertible(K)`: `gcd(cmod26(det(K)), 26) = 1` (R142). -/
def isInvertible (k : Mat2) : Bool := euclidGcd (cmod26 (det k)) modulus == 1

/-- A matrix reduced modulo 26 entry by entry (`10_state.md` R27). -/
def reduce26 (k : Mat2) : Mat2 := { a := cmod26 k.a, b := cmod26 k.b, c := cmod26 k.c, d := cmod26 k.d }

/-- The adjugate `[[d, −b], [−c, a]]`, with exact negation (R160, R166). -/
def adjugate (k : Mat2) : Mat2 := { a := k.d, b := -k.b, c := -k.c, d := k.a }

/-- Each entry times a scalar, by the modular multiplier (R105, R160). -/
def scale26 (x : Int) (k : Mat2) : Mat2 :=
  { a := mulm26 k.a x, b := mulm26 k.b x, c := mulm26 k.c x, d := mulm26 k.d x }

/-- `invert(K)`: the canonicalised adjugate times the inverse of the determinant's residue; `none` is the internal
inconsistency of R162. The gate `isInvertible` is not evaluated here (R160, R161). -/
def invert (k : Mat2) : Option Mat2 :=
  match minv26 (cmod26 (det k)) with
  | none => none
  | some invDet => some (scale26 invDet (reduce26 (adjugate k)))

/-- `transform(M, (v1, v2))`: the pair is a column vector multiplied on the left by the matrix (R176). -/
def transform (m : Mat2) (v : Int × Int) : Int × Int :=
  (cmod26 (m.a * v.1 + m.b * v.2), cmod26 (m.c * v.1 + m.d * v.2))

end Sys2Proof.Machine
end

