-- ==== Sys2Proof/Machine/Flags.lean ====
section
/-! DEFINITION. The codes of the small registers, the valid bits of the key, and the status register `SR`
(`10_state.md` R21, R25, R26, R31; `30_encoding.md` R76). -/

namespace Sys2Proof.Machine

/-- The 2-bit code of `FSM` (R25). -/
def fsmCode : Fsm → BitVec 2
  | .idle => 0#2
  | .run => 1#2
  | .fault => 2#2

/-- The 2-bit code of `MODE` (R26). -/
def modeCode : Mode → BitVec 2
  | .enc => 0#2
  | .dec => 1#2
  | .prv => 2#2

/-- The 4-bit code of a status, the field `ST` of a response (R76). -/
def statusCode : Status → BitVec 4
  | .ok => 0#4
  | .missingKey => 1#4
  | .nonInvertibleKey => 2#4
  | .emptyInput => 3#4
  | .internalInconsistency => 4#4
  | .noInverse => 5#4
  | .illegalCommand => 6#4
  | .badState => 7#4

/-- The four key entries, in the order of the bits of `KV` (R21, R72). -/
inductive KeyEntry where
  | e11
  | e12
  | e21
  | e22
deriving DecidableEq, Repr

/-- The place of an entry's valid bit in `KV` (R21). -/
def validBit : KeyEntry → BitVec 4
  | .e11 => 0b0001#4
  | .e12 => 0b0010#4
  | .e21 => 0b0100#4
  | .e22 => 0b1000#4

/-- `KVij <- 1`, the other valid bits unchanged (R140). -/
def setValid (x : KeyEntry) (kv : BitVec 4) : BitVec 4 := kv ||| validBit x

/-- `KV = 0b1111`: no entry is absent (`42_key_validator.md` R146). -/
def keyPresent (e : Engine) : Bool := e.kv == 0b1111#4

/-- `SR`, a read-only view: `{0[31:12], KV[3:0], 0b00, ANYCHAR, HALF, MODE[1:0], FSM[1:0]}` (R31, R210). -/
def statusRegister (e : Engine) : BitVec 32 :=
  0#20 ++ e.kv ++ 0#2 ++ BitVec.ofBool e.anychar ++ BitVec.ofBool e.half ++ modeCode e.mode ++ fsmCode e.fsm

end Sys2Proof.Machine
end

