-- ==== Sys2Proof/Machine/Operands.lean ====
section
/-! DEFINITION. How operands and results cross between bits and integers (`00_scope.md` R10, R11; `30_encoding.md`
R71, R82). All arithmetic between the two is on integers and exact (`40_modular_arithmetic.md` R111). -/

namespace Sys2Proof.Machine

/-- `sext16(f)`: `f` if `f < 32768`, else `f − 65536` (R11). The value of an `s16` operand (R71). -/
def sext16 (f : KeyWord) : Int := if f.toNat < 32768 then (f.toNat : Int) else (f.toNat : Int) - 65536

/-- `tc32(v)`: the 32-bit two's-complement field of an integer, `v` if `v ≥ 0`, else `v + 2^32` (R11). -/
def tc32 (v : Int) : BitVec 32 := BitVec.ofNat 32 (if 0 ≤ v then v else v + 2 ^ 32).toNat

/-- `zext(v)` of a non-negative value, into the field `DATA` (R11). -/
def zext32 (v : Int) : BitVec 32 := BitVec.ofNat 32 v.toNat

/-- `zext(v)` of a non-negative value, into the field `AUX` (R11). -/
def zext8 (v : Int) : BitVec 8 := BitVec.ofNat 8 v.toNat

/-- A residue in a 5-bit register (`10_state.md` R27). -/
def residue5 (v : Int) : Digit := BitVec.ofNat 5 v.toNat

/-- The integer a digit register or a `u5` operand stands for: zero-extended (R71). -/
def digitValue (d : Digit) : Int := (d.toNat : Int)

/-- The key `[[a, b], [c, d]]` as integers, from the raw register values (`10_state.md` R20, R141). -/
def keyMatrix (e : Engine) : Mat2 :=
  { a := sext16 e.k11, b := sext16 e.k12, c := sext16 e.k21, d := sext16 e.k22 }

/-- The working matrix as integers (`10_state.md` R27). -/
def workMatrix (e : Engine) : Mat2 :=
  { a := digitValue e.m11, b := digitValue e.m12, c := digitValue e.m21, d := digitValue e.m22 }

end Sys2Proof.Machine
end

