-- ==== Sys2Proof/Machine/Ops.lean ====
section
/-! DEFINITION. The named operations the meanings are made of: building a response, the two tests on `FSM` that come
before a command's own rule, the checks on the key, ending a call, and entering the state `FAULT`, which is this
machine's whole exception entry. There is no memory, so there is no operation on one (`20_memory.md` R50). -/

namespace Sys2Proof.Machine

/-! ### Responses -/

/-- `respond(st, aux, data)`: the response word `{ST, AUX, DATA}` (`30_encoding.md` R75). -/
def respond (st : Status) (aux : BitVec 8) (data : BitVec 32) : RspWord := statusCode st ++ aux ++ data

/-- The field `ST` of a response word (R75). -/
def rspSt (r : RspWord) : BitVec 4 := r.extractLsb' 40 4

/-- The field `AUX` of a response word (R75). -/
def rspAux (r : RspWord) : BitVec 8 := r.extractLsb' 32 8

/-- The field `DATA` of a response word (R75). -/
def rspData (r : RspWord) : BitVec 32 := r.extractLsb' 0 32

/-- The field `OUTV`, `AUX[0]`: the response carries one output pair (R80). -/
def outV (r : RspWord) : Bool := r.getLsbD 32

/-- The field `OUT1`, `DATA[15:8]`: the first element of the pair (R80). -/
def out1 (r : RspWord) : Char8 := r.extractLsb' 8 8

/-- The field `OUT2`, `DATA[7:0]`: the second element of the pair (R80). -/
def out2 (r : RspWord) : Char8 := r.extractLsb' 0 8

/-- What one command does: the engine after it, and the one response word that answers it (`00_scope.md` R7). -/
structure Reply where
  engine : Engine
  word : RspWord
deriving DecidableEq, Repr

/-- `raise <Status>(0, 0)`: the status alone, the engine as given (`00_scope.md` R13, `30_encoding.md` R77). -/
def raise (e : Engine) (st : Status) : Reply := { engine := e, word := respond st 0 0 }

/-- `respond(OK, 0, data)` with the engine as given. -/
def answerOk (e : Engine) (data : BitVec 32) : Reply := { engine := e, word := respond .ok 0 data }

/-- The command's effect and its response are one atomic step; the response is then outstanding
(`20_memory.md` R52, R53). -/
def deliver (s : State) (r : Reply) : Outcome := .next { s with engine := r.engine, rsp := some r.word }

/-! ### The tests on `FSM` before a command's own rule (`30_encoding.md` R88, `44_cipher_engine.md` R183) -/

/-- The answer of a command in `FAULT` (`60_exceptions.md` R228): the sticky status, nothing changed. -/
def stickyFault (e : Engine) : Reply := raise e .internalInconsistency

/-- The answer of a command that the FSM state does not allow (`60_exceptions.md` R227): nothing changed. -/
def badState (e : Engine) : Reply := raise e .badState

/-- A command legal in `IDLE` only: tests (2) and (3) of R88, then the command's own rule. -/
def whenIdle (e : Engine) (own : Reply) : Reply :=
  match e.fsm with
  | .idle => own
  | .run => badState e
  | .fault => stickyFault e

/-- A command legal in `RUN` only: tests (2) and (3) of R88, then the command's own rule. -/
def whenRun (e : Engine) (own : Reply) : Reply :=
  match e.fsm with
  | .idle => badState e
  | .run => own
  | .fault => stickyFault e

/-! ### The key and the session -/

/-- `invalidateKey` (`10_state.md` R22). -/
def invalidateKey (e : Engine) : Engine := { e with k11 := 0, k12 := 0, k21 := 0, k22 := 0, kv := 0 }

/-- `M`, `FIRST`, `HALF`, `ANYCHAR`, `MODE` back to 0: the part that `endCall` and `enterFault` share
(`44_cipher_engine.md` R190, `60_exceptions.md` R228). -/
def clearSession (e : Engine) : Engine :=
  { e with m11 := 0, m12 := 0, m21 := 0, m22 := 0, first := 0, half := false, anychar := false, mode := .enc }

/-- `endCall` (R190): the key is consumed by an `ENC` or `DEC` call and left by a `PRV` call. -/
def endCall (e : Engine) : Engine :=
  let e' := match e.mode with
    | .enc => invalidateKey e
    | .dec => invalidateKey e
    | .prv => e
  { clearSession e' with fsm := .idle }

/-- `enterFault` (`60_exceptions.md` R228): ENTERING THE EXCEPTION STATE. Nothing is saved and control goes nowhere
(R232); there is no return from it (R233), and the only way out is reset (R250). -/
def enterFault (e : Engine) : Engine := { clearSession (invalidateKey e) with fsm := .fault }

/-- The `None` arm of `invert`: `enterFault() ; respond(INTERNAL_INCONSISTENCY, 0, 0)` (R162, R228). -/
def takeInconsistency (e : Engine) : Reply := raise (enterFault e) .internalInconsistency

/-- A command that reads the key and leaves it alone: `if KV ≠ 0b1111: raise MISSING_KEY(0, 0)`
(`42_key_validator.md` R146). -/
def withKey (e : Engine) (own : Reply) : Reply := if keyPresent e then own else raise e .missingKey

/-- The response to a key that the gate rejects: the raw determinant and its residue (`42_key_validator.md` R148). -/
def nonInvertible (e : Engine) : Reply :=
  { engine := invalidateKey e,
    word := respond .nonInvertibleKey (zext8 (cmod26 (det (keyMatrix e)))) (tc32 (det (keyMatrix e))) }

/-- The two tests with which `STENC` and `STDEC` begin, in this order; either ends the call and invalidates the key
(`44_cipher_engine.md` R177, R178; R147, R229). -/
def withGate (e : Engine) (own : Reply) : Reply :=
  if keyPresent e then
    if isInvertible (keyMatrix e) then own else nonInvertible e
  else raise (invalidateKey e) .missingKey

/-- `M <- N`, entry by entry (R177, R178). -/
def loadMatrix (m : Mat2) (e : Engine) : Engine :=
  { e with m11 := residue5 m.a, m12 := residue5 m.b, m21 := residue5 m.c, m22 := residue5 m.d }

/-- `MODE <- mode ; HALF <- 0 ; FIRST <- 0 ; ANYCHAR <- 0 ; FSM <- RUN` (R177, R178, R179). -/
def openSession (mode : Mode) (e : Engine) : Engine :=
  { e with mode := mode, half := false, first := 0, anychar := false, fsm := .run }

/-- `invEntry(i, j)` (`43_matrix_inverter.md` section 2): the entry of the freshly computed inverse. -/
def invEntry (entry : Mat2 → Int) (e : Engine) : Reply :=
  withKey e <|
    match invert (keyMatrix e) with
    | some n => answerOk e (zext32 (entry n))
    | none => takeInconsistency e

end Sys2Proof.Machine
end

