-- ==== Sys2Proof/Machine/Codec.lean ====
section
/-! DEFINITION. The text/number codec: the per-character functions, the streaming encoder, the decoder, and the command
`DECD` (`41_codec.md`). -/

namespace Sys2Proof.Machine

open Sys2Proof.Config (modulus padDigit)

/-- `isLetter(ch)`: the 52 ASCII letter codes and nothing else (R120). -/
def isLetter (ch : Char8) : Bool :=
  (0x41 ≤ ch.toNat && ch.toNat ≤ 0x5A) || (0x61 ≤ ch.toNat && ch.toNat ≤ 0x7A)

/-- The uppercase of a letter: `u = ch − 0x20 if ch ≥ 0x61 else ch` (R121). -/
def upcase (ch : Char8) : Char8 := if 0x61 ≤ ch.toNat then ch - 0x20#8 else ch

/-- `digitOf(ch) = u − 0x41`, for a letter (R121). -/
def digitOf (ch : Char8) : Digit := (upcase ch - 0x41#8).setWidth 5

/-- `letterOf(d) = 0x41 + trem(d, 26)` (R124). -/
def letterOf (d : Digit) : Char8 := 0x41#8 + zext8 (trem (digitValue d) modulus)

/-- `encodeStep(ch)`: a letter is stored or completes a pair; anything else is stripped (R122). -/
def encodeStep (ch : Char8) (e : Engine) : Engine × Option DigitPair :=
  if isLetter ch then
    if e.half then ({ e with first := 0, half := false }, some (e.first, digitOf ch))
    else ({ e with first := digitOf ch, half := true }, none)
  else (e, none)

/-- `encodeFinish()`: the last pair of an odd-length text is padded with 23 (R123). -/
def encodeFinish (e : Engine) : Engine × Option DigitPair :=
  if e.half then ({ e with first := 0, half := false }, some (e.first, padDigit)) else (e, none)

/-- `DECD d` (R128). -/
def execDecd (d : Digit) (s : State) : Outcome :=
  deliver s <| whenIdle s.engine <| answerOk s.engine ((letterOf d).setWidth 32)

end Sys2Proof.Machine
end

