-- ==== Sys2Proof/Machine/CipherEngine.lean ====
section
/-! DEFINITION. The cipher engine: the response that carries a pair, and the commands `STENC`, `STDEC`, `STPRV`, `PUTC`,
`FIN` (`44_cipher_engine.md`). -/

namespace Sys2Proof.Machine

/-- A response with one output pair: `OUTV = 1`, first element in `DATA[15:8]` (`30_encoding.md` R80). -/
def pairResponse (w1 w2 : Char8) : RspWord := respond .ok 1 (0#16 ++ w1 ++ w2)

/-- `emit(p)`: raw digits in mode `PRV`, the letters of the transformed pair otherwise (R182). -/
def emit (e : Engine) (p : DigitPair) : RspWord :=
  match e.mode with
  | .prv => pairResponse (p.1.setWidth 8) (p.2.setWidth 8)
  | .enc | .dec =>
    let w := transform (workMatrix e) (digitValue p.1, digitValue p.2)
    pairResponse (letterOf (residue5 w.1)) (letterOf (residue5 w.2))

/-- The response of `PUTC` or `FIN`: the pair the encoder returned, if any (R180, R181). -/
def emitPair (e : Engine) : Option DigitPair → RspWord
  | none => respond .ok 0 0
  | some p => emit e p

/-- `STENC`: the gate, then the key reduced modulo 26 becomes the working matrix (R177). -/
def execStenc (s : State) : Outcome :=
  deliver s <| whenIdle s.engine <| withGate s.engine <|
    answerOk (openSession .enc (loadMatrix (reduce26 (keyMatrix s.engine)) s.engine)) 0

/-- `STDEC`: the same gate, then the inverse becomes the working matrix. The `none` arm is the rule's own; R193 says
that it is dead (R178). -/
def execStdec (s : State) : Outcome :=
  deliver s <| whenIdle s.engine <| withGate s.engine <|
    match invert (keyMatrix s.engine) with
    | none => takeInconsistency s.engine
    | some n => answerOk (openSession .dec (loadMatrix n s.engine)) 0

/-- `STPRV`: opens a preview; no key is read (R179). -/
def execStprv (s : State) : Outcome :=
  deliver s <| whenIdle s.engine <| answerOk (openSession .prv s.engine) 0

/-- `PUTC ch` (R180). -/
def execPutc (ch : Char8) (s : State) : Outcome :=
  deliver s <| whenRun s.engine <|
    let e := { s.engine with anychar := true }
    let r := encodeStep ch e
    { engine := r.1, word := emitPair r.1 r.2 }

/-- The response of `FIN`, computed before the call is ended (R181, R184). -/
def finResponse (e : Engine) : RspWord :=
  if e.mode = .dec ∧ e.anychar = false then respond .emptyInput 0 0
  else emitPair e (encodeFinish e).2

/-- `FIN`: the response, then `endCall` (R181, R190). -/
def execFin (s : State) : Outcome :=
  deliver s <| whenRun s.engine <| { engine := endCall s.engine, word := finResponse s.engine }

end Sys2Proof.Machine
end

