-- ==== Sys2Proof/Machine/KeyValidator.lean ====
section
/-! DEFINITION. The commands of the key registers and the key validator: `LDK11`, `LDK12`, `LDK21`, `LDK22`, `DET`,
`ISINV` (`42_key_validator.md`). -/

namespace Sys2Proof.Machine

/-- `LDK11 v`: `K11 <- v ; KV11 <- 1`, the value as given, not reduced (R140). -/
def execLdk11 (v : KeyWord) (s : State) : Outcome :=
  deliver s <| whenIdle s.engine <| answerOk { s.engine with k11 := v, kv := setValid .e11 s.engine.kv } 0

/-- `LDK12 v`: `K12 <- v ; KV12 <- 1` (R149). -/
def execLdk12 (v : KeyWord) (s : State) : Outcome :=
  deliver s <| whenIdle s.engine <| answerOk { s.engine with k12 := v, kv := setValid .e12 s.engine.kv } 0

/-- `LDK21 v`: `K21 <- v ; KV21 <- 1` (R150). -/
def execLdk21 (v : KeyWord) (s : State) : Outcome :=
  deliver s <| whenIdle s.engine <| answerOk { s.engine with k21 := v, kv := setValid .e21 s.engine.kv } 0

/-- `LDK22 v`: `K22 <- v ; KV22 <- 1` (R151). -/
def execLdk22 (v : KeyWord) (s : State) : Outcome :=
  deliver s <| whenIdle s.engine <| answerOk { s.engine with k22 := v, kv := setValid .e22 s.engine.kv } 0

/-- `DET`: the raw determinant in 32-bit two's complement (R144). -/
def execDet (s : State) : Outcome :=
  deliver s <| whenIdle s.engine <| withKey s.engine <| answerOk s.engine (tc32 (det (keyMatrix s.engine)))

/-- `ISINV`: 1 if the loaded key is invertible, else 0 (R145). -/
def execIsinv (s : State) : Outcome :=
  deliver s <| whenIdle s.engine <| withKey s.engine <|
    answerOk s.engine (if isInvertible (keyMatrix s.engine) then 1 else 0)

end Sys2Proof.Machine
end

