-- ==== Sys2Proof/Machine/MatrixInverter.lean ====
section
/-! DEFINITION. The commands of the 2×2 matrix inversion unit: `INV11`, `INV12`, `INV21`, `INV22`
(`43_matrix_inverter.md`). Each evaluates `invert(K)` afresh and writes no working matrix (R165). -/

namespace Sys2Proof.Machine

/-- `INV11`: `invEntry(1, 1)` (R164). -/
def execInv11 (s : State) : Outcome := deliver s <| whenIdle s.engine <| invEntry Mat2.a s.engine

/-- `INV12`: `invEntry(1, 2)` (R167). -/
def execInv12 (s : State) : Outcome := deliver s <| whenIdle s.engine <| invEntry Mat2.b s.engine

/-- `INV21`: `invEntry(2, 1)` (R168). -/
def execInv21 (s : State) : Outcome := deliver s <| whenIdle s.engine <| invEntry Mat2.c s.engine

/-- `INV22`: `invEntry(2, 2)` (R169). -/
def execInv22 (s : State) : Outcome := deliver s <| whenIdle s.engine <| invEntry Mat2.d s.engine

end Sys2Proof.Machine
end

