-- ==== Sys2Proof/Machine/Modular.lean ====
section
/-! DEFINITION. The commands of the modular multiplier and inverse engine: `CMOD`, `GCD`, `MINV`, `MULM`
(`40_modular_arithmetic.md` R107 to R110). They read and write no register (R112). -/

namespace Sys2Proof.Machine

/-- `CMOD n` (R107). -/
def execCmod (n : KeyWord) (s : State) : Outcome :=
  deliver s <| whenIdle s.engine <| answerOk s.engine (zext32 (cmod26 (sext16 n)))

/-- `GCD a, b` (R108). -/
def execGcd (a b : KeyWord) (s : State) : Outcome :=
  deliver s <| whenIdle s.engine <| answerOk s.engine (zext32 (euclidGcd (sext16 a) (sext16 b)))

/-- `MINV a` (R109): `NO_INVERSE` is a result, not a fault (`60_exceptions.md` R225). -/
def execMinv (a : KeyWord) (s : State) : Outcome :=
  deliver s <| whenIdle s.engine <|
    match minv26 (sext16 a) with
    | some x => answerOk s.engine (zext32 x)
    | none => raise s.engine .noInverse

/-- `MULM a, b` (R110). -/
def execMulm (a b : KeyWord) (s : State) : Outcome :=
  deliver s <| whenIdle s.engine <| answerOk s.engine (zext32 (mulm26 (sext16 a) (sext16 b)))

end Sys2Proof.Machine
end

