-- ==== Sys2Proof/Machine/System.lean ====
section
/-! DEFINITION. The system command `RDSR` (`45_system.md`). There is no other (R212). -/

namespace Sys2Proof.Machine

/-- `RDSR`: legal in every state, `FAULT` included; it changes nothing (R210). -/
def execRdsr (s : State) : Outcome := deliver s <| answerOk s.engine (statusRegister s.engine)

end Sys2Proof.Machine
end

