-- ==== Sys2Proof/Machine/Dispatch.lean ====
section
/-! DEFINITION. The dispatch: one arm per command, each a direct call of its meaning. -/

namespace Sys2Proof.Machine

/-- What a command does in a state (`00_scope.md` R7). -/
def exec (i : Instr) (s : State) : Host.Outcome State Fault Refusal :=
  match i with
  | .rdsr => Sys2Proof.Machine.execRdsr s
  | .cmod n => Sys2Proof.Machine.execCmod n s
  | .gcd a b => Sys2Proof.Machine.execGcd a b s
  | .minv a => Sys2Proof.Machine.execMinv a s
  | .mulm a b => Sys2Proof.Machine.execMulm a b s
  | .decd d => Sys2Proof.Machine.execDecd d s
  | .ldk11 v => Sys2Proof.Machine.execLdk11 v s
  | .ldk12 v => Sys2Proof.Machine.execLdk12 v s
  | .ldk21 v => Sys2Proof.Machine.execLdk21 v s
  | .ldk22 v => Sys2Proof.Machine.execLdk22 v s
  | .det => Sys2Proof.Machine.execDet s
  | .isinv => Sys2Proof.Machine.execIsinv s
  | .inv11 => Sys2Proof.Machine.execInv11 s
  | .inv12 => Sys2Proof.Machine.execInv12 s
  | .inv21 => Sys2Proof.Machine.execInv21 s
  | .inv22 => Sys2Proof.Machine.execInv22 s
  | .stenc => Sys2Proof.Machine.execStenc s
  | .stdec => Sys2Proof.Machine.execStdec s
  | .stprv => Sys2Proof.Machine.execStprv s
  | .putc ch => Sys2Proof.Machine.execPutc ch s
  | .fin => Sys2Proof.Machine.execFin s

end Sys2Proof.Machine
end

