-- ==== Sys2Proof/Machine/Ports.lean ====
section
/-! DEFINITION. The command port and the response port, and what each move of the host does (`20_memory.md` R51, R52;
`70_reset_and_hazards.md` R250 to R252, R254). -/

namespace Sys2Proof.Machine

/-- The pin `rsp_valid`: the engine offers a response word (R51). -/
def rspValid (s : State) : Bool := s.rsp.isSome

/-- The pin `cmd_ready`: 0 from the acceptance of a command until its response has been taken (R52). -/
def cmdReady (s : State) : Bool := !rspValid s

/-- One accepted command word: the transition `(state, c) ↦ (state', r)` of R52. A word that is no command is answered
`ILLEGAL_COMMAND` and changes nothing, before anything else is tested (`30_encoding.md` R74, R88). -/
def accept (w : CmdWord) (s : State) : Outcome :=
  match decode w with
  | .ok i => exec i s
  | .error _ => deliver s (raise s.engine .illegalCommand)

/-- The host presents a command word. It is accepted only while `cmd_ready` is 1 (R51); otherwise nothing is accepted
and nothing changes (X8; DEDUCED, log entry 2; unsafe for a host that ignores `cmd_ready`). -/
def offerCommand (w : CmdWord) (s : State) : Outcome := if cmdReady s then accept w s else .next s

/-- The host takes the response on offer, which allows the next command and has no other effect (R52, R56); where none
is on offer nothing is taken (DEDUCED, log entry 2). -/
def takeResponse (s : State) : State := { s with rsp := none }

/-- The host applies `rst`: every register as R251 says, and an outstanding command gets no response (R250, R252). -/
def applyReset (s : State) : State := { s with engine := Engine.reset, rsp := none }

/-- What one move of the host does (`00_scope.md` R7). -/
def hostMove (m : HostMove) (s : State) : Outcome :=
  match m with
  | .command w => offerCommand w s
  | .take => .next (takeResponse s)
  | .reset => .next (applyReset s)

/-- The machine with the host about to present the word `w`, the response before it taken. -/
def presentNext (w : CmdWord) (s : State) : State := { s with rsp := none, host := .command w :: s.host }

end Sys2Proof.Machine
end

