-- ==== Sys2Proof/Machine/Step.lean ====
section
/-! DEFINITION. One step of the machine: the host's next move. -/

namespace Sys2Proof.Machine

/-- One step: the host's next move and what the engine does about it. With no move to come nothing happens, since the
engine never acts on its own (`00_scope.md` R7, `60_exceptions.md` R240; DEDUCED, log entry 3; safe). -/
def step (s : State) : Host.Outcome State Fault Refusal :=
  match s.host with
  | [] => .next s
  | m :: rest => hostMove m { s with host := rest }

/-- The state in which the next step accepts and runs the command word held by the low `nbits` bits of `w`
(log entry 1). -/
def State.withFetchWord (s : State) (nbits w : Nat) : State := presentNext (wordOfBits nbits w) s

end Sys2Proof.Machine
end

