-- ==== Sys2Proof/Machine/Assembler.lean ====
section
/-! DEFINITION. The assembler syntax of `30_encoding.md` R85: one line of text to a command word. Text is a list of
characters, so that the kernel can evaluate it. What R85 leaves open of a line's form (blanks, case of hex digits, raw
words) is a DESIGN CHOICE, log entry 6 (unsafe for statements about text, safe for the machine). -/

namespace Sys2Proof.Machine

/-- Blank characters between the parts of a line. -/
def isBlank (c : Char) : Bool := c == ' ' || c == '\t'

/-- A line without its comment: "`;` starts a comment" (R85), except inside a quoted character. -/
def dropComment : List Char → List Char
  | [] => []
  | '\'' :: c :: '\'' :: rest => '\'' :: c :: '\'' :: dropComment rest
  | c :: rest => if c = ';' then [] else c :: dropComment rest

/-- A part of a line without the blanks around it. -/
def trimBlanks (l : List Char) : List Char := ((l.dropWhile isBlank).reverse.dropWhile isBlank).reverse

/-- The operands of a line, "separated by commas" (R85); a quoted comma separates nothing. -/
def splitCommas : List Char → List Char → List (List Char)
  | acc, [] => [acc.reverse]
  | acc, '\'' :: c :: '\'' :: rest => splitCommas ('\'' :: c :: '\'' :: acc) rest
  | acc, c :: rest => if c = ',' then acc.reverse :: splitCommas [] rest else splitCommas (c :: acc) rest

/-- The value of a decimal or hexadecimal digit; 16 for any other character. -/
def digitChar (c : Char) : Nat :=
  if '0' ≤ c ∧ c ≤ '9' then c.toNat - '0'.toNat
  else if 'A' ≤ c ∧ c ≤ 'F' then c.toNat - 'A'.toNat + 10
  else if 'a' ≤ c ∧ c ≤ 'f' then c.toNat - 'a'.toNat + 10
  else 16

/-- A run of digits to a base, most significant first. -/
def readDigits (base : Nat) : Nat → List Char → Option Nat
  | n, [] => some n
  | n, c :: rest => if digitChar c < base then readDigits base (base * n + digitChar c) rest else none

/-- A natural number, at least one digit, decimal or hexadecimal after `0x` (R85). -/
def readNat : List Char → Option Nat
  | [] => none
  | '0' :: 'x' :: [] => none
  | '0' :: 'x' :: c :: rest => readDigits 16 0 (c :: rest)
  | c :: rest => readDigits 10 0 (c :: rest)

/-- An `s16` operand: a decimal integer −32768 … 32767, or `0x` and up to four hex digits giving the field as is
(R85). -/
def readS16 : List Char → Option KeyWord
  | '0' :: 'x' :: l =>
    if l.length ≤ 4 then (readNat ('0' :: 'x' :: l)).map (BitVec.ofNat 16) else none
  | '-' :: '0' :: 'x' :: _ => none
  | '-' :: l => (readNat l).bind fun n => if n ≤ 32768 then some (BitVec.ofInt 16 (-(n : Int))) else none
  | l => (readNat l).bind fun n => if n ≤ 32767 then some (BitVec.ofNat 16 n) else none

/-- A `u5` operand: decimal or hex, 0 … 31 (R85, R71). -/
def readU5 (l : List Char) : Option Digit :=
  (readNat l).bind fun n => if n ≤ 31 then some (BitVec.ofNat 5 n) else none

/-- A `u8` operand: decimal or hex, 0 … 255, or a quoted printable ASCII character (R85, R71). -/
def readU8 : List Char → Option Char8
  | ['\'', c, '\''] => if 0x20 ≤ c.toNat ∧ c.toNat ≤ 0x7E then some (BitVec.ofNat 8 c.toNat) else none
  | l => (readNat l).bind fun n => if n ≤ 255 then some (BitVec.ofNat 8 n) else none

/-- A command with no operand. -/
def noOperand (i : Instr) : List (List Char) → Option Instr
  | [] => some i
  | _ => none

/-- A command with one operand. -/
def oneOperand {α : Type} (read : List Char → Option α) (i : α → Instr) : List (List Char) → Option Instr
  | [x] => (read x).map i
  | _ => none

/-- A command with two operands, "in the order `A`, `B`" (R85). -/
def twoOperands (i : KeyWord → KeyWord → Instr) : List (List Char) → Option Instr
  | [x, y] => (readS16 x).bind fun a => (readS16 y).map fun b => i a b
  | _ => none

/-- The command of a mnemonic, in upper case, and its operands (R72, R85). -/
def assembleParts (m : List Char) (ops : List (List Char)) : Option Instr :=
  if m = ['R', 'D', 'S', 'R'] then noOperand .rdsr ops
  else if m = ['C', 'M', 'O', 'D'] then oneOperand readS16 .cmod ops
  else if m = ['G', 'C', 'D'] then twoOperands .gcd ops
  else if m = ['M', 'I', 'N', 'V'] then oneOperand readS16 .minv ops
  else if m = ['M', 'U', 'L', 'M'] then twoOperands .mulm ops
  else if m = ['D', 'E', 'C', 'D'] then oneOperand readU5 .decd ops
  else if m = ['L', 'D', 'K', '1', '1'] then oneOperand readS16 .ldk11 ops
  else if m = ['L', 'D', 'K', '1', '2'] then oneOperand readS16 .ldk12 ops
  else if m = ['L', 'D', 'K', '2', '1'] then oneOperand readS16 .ldk21 ops
  else if m = ['L', 'D', 'K', '2', '2'] then oneOperand readS16 .ldk22 ops
  else if m = ['D', 'E', 'T'] then noOperand .det ops
  else if m = ['I', 'S', 'I', 'N', 'V'] then noOperand .isinv ops
  else if m = ['I', 'N', 'V', '1', '1'] then noOperand .inv11 ops
  else if m = ['I', 'N', 'V', '1', '2'] then noOperand .inv12 ops
  else if m = ['I', 'N', 'V', '2', '1'] then noOperand .inv21 ops
  else if m = ['I', 'N', 'V', '2', '2'] then noOperand .inv22 ops
  else if m = ['S', 'T', 'E', 'N', 'C'] then noOperand .stenc ops
  else if m = ['S', 'T', 'D', 'E', 'C'] then noOperand .stdec ops
  else if m = ['S', 'T', 'P', 'R', 'V'] then noOperand .stprv ops
  else if m = ['P', 'U', 'T', 'C'] then oneOperand readU8 .putc ops
  else if m = ['F', 'I', 'N'] then noOperand .fin ops
  else none

/-- A raw word, "written as `0xOO_AAAA_BBBB`" (R85). -/
def readRawWord : List Char → Option CmdWord
  | '0' :: 'x' :: o1 :: o0 :: '_' :: a3 :: a2 :: a1 :: a0 :: '_' :: [b3, b2, b1, b0] =>
    (readDigits 16 0 [o1, o0, a3, a2, a1, a0, b3, b2, b1, b0]).map (BitVec.ofNat 40)
  | _ => none

/-- One line to its command word: a raw word, or a mnemonic and its operands (R85). -/
def assembleLine (line : List Char) : Option CmdWord :=
  let l := trimBlanks (dropComment line)
  match readRawWord l with
  | some w => some w
  | none =>
    let m := l.takeWhile fun c => !isBlank c
    let rest := trimBlanks (l.dropWhile fun c => !isBlank c)
    let ops := if rest.isEmpty then [] else (splitCommas [] rest).map trimBlanks
    (assembleParts m ops).map encode

end Sys2Proof.Machine
end

