-- ==== Sys2Proof/Machine/Calls.lean ====
section
/-! DEFINITION. Whole calls (`44_cipher_engine.md` section 4): the pseudo-commands of `30_encoding.md` R86, the run of a
list of command words, the output text and the result of a call (R80, R187 to R189), and the functions on whole texts
that the streaming datapath realises (`41_codec.md` R125 to R127). -/

namespace Sys2Proof.Machine

open Sys2Proof.Config (padDigit)

/-! ### The functions on whole texts -/

/-- Digits grouped consecutively into pairs, the last of an odd number padded with 23 (R127). -/
def pairUp : List Digit → List DigitPair
  | [] => []
  | [d] => [(d, padDigit)]
  | d :: d' :: rest => (d, d') :: pairUp rest

/-- `encode(t)`: the letters of the text, as digits, in pairs (R127). -/
def encodeText (t : List Char8) : List DigitPair := pairUp ((t.filter isLetter).map digitOf)

/-- One output pair of the cipher engine as two letters, first element first (R125). -/
def decodePair (w : Int × Int) : List Char8 := [letterOf (residue5 w.1), letterOf (residue5 w.2)]

/-- A digit pair as a vector of integers (R176). -/
def pairVector (p : DigitPair) : Int × Int := (digitValue p.1, digitValue p.2)

/-- `decode(map (transform m) (encode(t)))` (`44_cipher_engine.md` R187, R188). -/
def cipherText (m : Mat2) (t : List Char8) : List Char8 :=
  (encodeText t).flatMap fun p => decodePair (transform m (pairVector p))

/-- The text stripped of non-letters, uppercased, and padded with one `X` to even length (R126). -/
def normalText (t : List Char8) : List Char8 :=
  let u := (t.filter isLetter).map upcase
  if u.length % 2 = 1 then u ++ [0x58#8] else u

/-! ### Running command words -/

/-- The run of a list of command words: each is accepted when the response before it has been taken, and the responses
come back in the same order (`20_memory.md` R52, R59). The run has ended when the last response has been taken
(`70_reset_and_hazards.md` R259). -/
def runWords : List CmdWord → State → State × List RspWord
  | [], s => (s, [])
  | w :: ws, s =>
    match accept w s with
    | .next t => ((runWords ws (takeResponse t)).1, t.rsp.toList ++ (runWords ws (takeResponse t)).2)
    | .fault _ => (s, [])
    | .refused _ => (s, [])

/-- The output text: `OUT1` then `OUT2` of every response with `ST = OK` and `OUTV = 1`, in order (R80). -/
def outputText (rs : List RspWord) : List Char8 :=
  rs.flatMap fun r => if rspSt r = statusCode .ok ∧ outV r = true then [out1 r, out2 r] else []

/-- The result of a call: `Ok(s)`, or the error with what its response carries (R187 to R189). -/
inductive CallResult where
  | ok (text : List Char8)
  | err (st : BitVec 4) (aux : BitVec 8) (data : BitVec 32)
deriving DecidableEq, Repr

/-- The error of the first response that is not `OK`, or the output text (R185, R187). The rules give the result of a
call that begins in `IDLE`; the same reading elsewhere is DEDUCED (log entry 11). -/
def callResult (rs : List RspWord) : CallResult :=
  match rs.find? fun r => rspSt r != statusCode .ok with
  | some r => .err (rspSt r) (rspAux r) (rspData r)
  | none => .ok (outputText rs)

/-! ### Pseudo-commands -/

/-- The pseudo-commands of R86. -/
inductive Pseudo where
  | key (a b c d : KeyWord)
  | text (t : List Char8)
  | encrypt (t : List Char8) (a b c d : KeyWord)
  | decrypt (t : List Char8) (a b c d : KeyWord)
  | preview (t : List Char8)
deriving DecidableEq, Repr

/-- `KEY a, b, c, d` (R86). -/
def keyWords (a b c d : KeyWord) : List CmdWord :=
  [encode (.ldk11 a), encode (.ldk12 b), encode (.ldk21 c), encode (.ldk22 d)]

/-- `TEXT "s"`: one `PUTC` per byte, in order (R86). -/
def textWords (t : List Char8) : List CmdWord := t.map fun ch => encode (.putc ch)

/-- `TEXT "s" ; FIN`: the words that follow the opening of a call (R86). -/
def bodyWords (t : List Char8) : List CmdWord := textWords t ++ [encode .fin]

/-- `ENCRYPT` and `DECRYPT`: the opening words, then the text and `FIN`, where the host stops after the opening words if
their last status is not `OK` (R86). -/
def runCall (opening : List CmdWord) (t : List Char8) (s : State) : State × List RspWord :=
  let r := runWords opening s
  if r.2.getLast?.map rspSt = some (statusCode .ok) then
    let r' := runWords (bodyWords t) r.1
    (r'.1, r.2 ++ r'.2)
  else r

/-- A pseudo-command run from a state (R86). `PREVIEW` has no stop rule: its whole expansion is issued, whatever `STPRV`
answers; that R16's end of a call does not stop the host there is DEDUCED (log entry 11; unsafe outside `IDLE`). -/
def runPseudo (p : Pseudo) (s : State) : State × List RspWord :=
  match p with
  | .key a b c d => runWords (keyWords a b c d) s
  | .text t => runWords (textWords t) s
  | .encrypt t a b c d => runCall (keyWords a b c d ++ [encode .stenc]) t s
  | .decrypt t a b c d => runCall (keyWords a b c d ++ [encode .stdec]) t s
  | .preview t => runWords (encode .stprv :: bodyWords t) s

/-- The key `[[a, b], [c, d]]` of a call, as integers (R187). -/
def keyOf (a b c d : KeyWord) : Mat2 := { a := sext16 a, b := sext16 b, c := sext16 c, d := sext16 d }

end Sys2Proof.Machine
end

