-- ==== Sys2Proof/Safety.lean ====
section
/-! DEFINITION. What the claims call a safe run: the invariants of `10_state.md` R35, and how a run has ended
(`70_reset_and_hazards.md` R259, `60_exceptions.md` R228). -/

namespace Sys2Proof.Machine

/-- R35 (b): outside a session the session registers are 0. -/
def idleClear (e : Engine) : Prop :=
  e.fsm ≠ .run → e.mode = .enc ∧ e.half = false ∧ e.anychar = false ∧ e.first = 0 ∧
    e.m11 = 0 ∧ e.m12 = 0 ∧ e.m21 = 0 ∧ e.m22 = 0

/-- R35 (c): in `FAULT` no key is present. -/
def faultKeyless (e : Engine) : Prop :=
  e.fsm = .fault → e.kv = 0 ∧ e.k11 = 0 ∧ e.k12 = 0 ∧ e.k21 = 0 ∧ e.k22 = 0

/-- R35 (d): the pair buffer is empty while `HALF = 0`, and a held digit came from a `PUTC`. -/
def bufferCoherent (e : Engine) : Prop := (e.half = false → e.first = 0) ∧ (e.half = true → e.anychar = true)

/-- R35 (e): the 5-bit registers hold residues. -/
def residuesInRange (e : Engine) : Prop :=
  e.m11.toNat ≤ 25 ∧ e.m12.toNat ≤ 25 ∧ e.m21.toNat ≤ 25 ∧ e.m22.toNat ≤ 25 ∧ e.first.toNat ≤ 25

/-- R35 (f): in an `ENC` or `DEC` session the key is present and admitted, and the working matrix is the reduced key or
its inverse; R27: in a `PRV` session the working matrix is 0. -/
def sessionKeyed (e : Engine) : Prop :=
  e.fsm = .run →
    match e.mode with
    | .enc => e.kv = 0b1111#4 ∧ isInvertible (keyMatrix e) = true ∧ workMatrix e = reduce26 (keyMatrix e)
    | .dec => e.kv = 0b1111#4 ∧ isInvertible (keyMatrix e) = true ∧ invert (keyMatrix e) = some (workMatrix e)
    | .prv => e.m11 = 0 ∧ e.m12 = 0 ∧ e.m21 = 0 ∧ e.m22 = 0

/-- R35 (g): an absent entry holds 0. -/
def absentKeyZero (e : Engine) : Prop :=
  (e.kv.getLsbD 0 = false → e.k11 = 0) ∧ (e.kv.getLsbD 1 = false → e.k12 = 0) ∧
    (e.kv.getLsbD 2 = false → e.k21 = 0) ∧ (e.kv.getLsbD 3 = false → e.k22 = 0)

/-- The invariants of R35, (b) to (g); (a) holds by the types of `FSM` and `MODE`. -/
structure EngineInv (e : Engine) : Prop where
  idle_clear : idleClear e
  fault_keyless : faultKeyless e
  buffer_coherent : bufferCoherent e
  residues_in_range : residuesInRange e
  session_keyed : sessionKeyed e
  absent_key_zero : absentKeyZero e

/-! ### Where a command is legal, and the transitions of `FSM` (`44_cipher_engine.md` R183, R175) -/

/-- `Legal in: IDLE` of a command rule: elsewhere the command gets `BAD_STATE` or the sticky fault status and changes
nothing (`40_modular_arithmetic.md`, template; R183). -/
def legalOnlyInIdle (i : Instr) : Prop :=
  ∀ s : State,
    (s.engine.fsm = .run → exec i s = .next { s with rsp := some (respond .badState 0 0) }) ∧
    (s.engine.fsm = .fault → exec i s = .next { s with rsp := some (respond .internalInconsistency 0 0) })

/-- `Legal in: RUN` of a command rule (R183). -/
def legalOnlyInRun (i : Instr) : Prop :=
  ∀ s : State,
    (s.engine.fsm = .idle → exec i s = .next { s with rsp := some (respond .badState 0 0) }) ∧
    (s.engine.fsm = .fault → exec i s = .next { s with rsp := some (respond .internalInconsistency 0 0) })

/-- Four entries present and key invertible (R175). -/
def keyAdmitted (e : Engine) : Prop := e.kv = 0b1111#4 ∧ isInvertible (keyMatrix e) = true

/-- Four entries present and key not invertible (R175). -/
def keyInadmissible (e : Engine) : Prop := e.kv = 0b1111#4 ∧ isInvertible (keyMatrix e) = false

/-- The value of `FSM` that a command moves to, with the condition of the row: the rows of R175 that leave their state.
Every other row stays, as "No other transition exists". -/
def fsmMove (e : Engine) (i : Instr) (next : Fsm) : Prop :=
  (e.fsm = .idle ∧ (i = .stenc ∨ i = .stdec) ∧ keyAdmitted e ∧ next = .run) ∨
  (e.fsm = .idle ∧ i = .stprv ∧ next = .run) ∨
  (e.fsm = .idle ∧ i ∈ [Instr.inv11, .inv12, .inv21, .inv22] ∧ keyInadmissible e ∧ next = .fault) ∨
  (e.fsm = .run ∧ i = .fin ∧ next = .idle)

/-- The mode that an opening command sets (R175). -/
def modeOpened : Instr → Option Mode
  | .stenc => some .enc
  | .stdec => some .dec
  | .stprv => some .prv
  | _ => none

/-! ### The bits of a response that a command's rule defines (`30_encoding.md` R77) -/

/-- The bits of `AUX` in an `OK` response: `OUTV` of `PUTC` and `FIN` (R80), none elsewhere. -/
def auxBits : Instr → BitVec 8
  | .putc _ | .fin => 1
  | .rdsr | .cmod _ | .gcd _ _ | .minv _ | .mulm _ _ | .decd _ | .ldk11 _ | .ldk12 _ | .ldk21 _ | .ldk22 _ | .det
  | .isinv | .inv11 | .inv12 | .inv21 | .inv22 | .stenc | .stdec | .stprv => 0

/-- The bits of `DATA` in an `OK` response: the fields of the status register (`10_state.md` R31); a residue 0 … 25
(`40_modular_arithmetic.md` R107, R109, R110, `43_matrix_inverter.md` R164); a divisor 0 … 32768 (R108); a character
(`41_codec.md` R128); the determinant (`42_key_validator.md` R144); the answer 0 or 1 (R145); an output pair (R80);
none at a load or an opening. -/
def dataBits : Instr → BitVec 32
  | .rdsr => 0xF3F
  | .cmod _ | .minv _ | .mulm _ _ | .inv11 | .inv12 | .inv21 | .inv22 => 0x1F
  | .gcd _ _ => 0xFFFF
  | .decd _ => 0xFF
  | .det => 0xFFFFFFFF
  | .isinv => 1
  | .putc _ | .fin => 0xFFFF
  | .ldk11 _ | .ldk12 _ | .ldk21 _ | .ldk22 _ | .stenc | .stdec | .stprv => 0

/-- "a model's claim about a run can take `FSM ≠ FAULT` at the end as no fault happened" (R228). -/
def noFault (s : State) : Bool := s.engine.fsm != .fault

/-- A run that ends with `FSM = RUN` has an open call and its result is incomplete (R259). -/
def callOpen (s : State) : Bool := s.engine.fsm == .run

/-- Nothing is in flight: the last response has been taken and the host has no move to come (R259). -/
def quiescent (s : State) : Bool := s.rsp.isNone && s.host.isEmpty

end Sys2Proof.Machine
end

