-- ==== Sys2Proof/Certificates/Slice0/Obligations.lean ====
section
/-! DEFINITION. The statements for the provers. Each says what the rule it cites says, over every state and operand that
meets its hypotheses. Results are written with Lean's own integers, remainders and greatest common divisors, not with
the model's functions, so that a wrong function makes a statement false. -/

open Sys2Proof Sys2Proof.Machine

/-! ### Words and decoding -/

/-- `30_encoding.md` R70 to R72: decoding and encoding agree in both directions, for every command and every word. -/
def Obligations.DecodeAndEncodeAgree : Prop :=
  (∀ i : Instr, decode (encode i) = .ok i) ∧ ∀ (w : CmdWord) (i : Instr), decode w = .ok i → encode i = w

/-- R74: "every one of the 2^40 words is either exactly one of the 21 commands or illegal"; an illegal word is answered
`ILLEGAL_COMMAND` and changes no state, in every FSM state; `OP = 0x00` and `OP = 0x53` are illegal. -/
def Obligations.EveryWordIsOneCommandOrIllegal : Prop :=
  (∀ w : CmdWord,
    (∃ i r, decode w = .ok i ∧ i.row = some r ∧ r ∈ opcodeTable ∧ r.hits w = true ∧
      ∀ r' ∈ opcodeTable, r'.hits w = true → r' = r) ∨
    ((∃ x, decode w = .error x) ∧ ∀ r ∈ opcodeTable, r.hits w = false)) ∧
  opcodeTable.length = 21 ∧
  (∀ (w : CmdWord) (s : State), (∀ r ∈ opcodeTable, r.hits w = false) →
    accept w s = .next { s with rsp := some (respond .illegalCommand 0 0) }) ∧
  ∀ w : CmdWord, opField w = 0x00#8 ∨ opField w = 0x53#8 → ∀ r ∈ opcodeTable, r.hits w = false

/-- R73: a word with a defined `OP` and a non-zero must-be-zero bit is not that command; it is an illegal encoding. The
checks of `WellFormed.lean` pass on exactly the words that decode. -/
def Obligations.MustBeZeroBitsMakeAWordIllegal : Prop :=
  (∀ w : CmdWord, opDefined (fieldsOf w) = true → (aClear (fieldsOf w) && bClear (fieldsOf w)) = false →
    decode w = .error (.mustBeZero (opField w))) ∧
  (∀ w : CmdWord, (fieldsOf w).wellFormed = true ↔ ∃ i, decode w = .ok i) ∧
  decode 0x1000010005#40 = .error (.mustBeZero 0x10#8) ∧ decode 0x5400000141#40 = .error (.mustBeZero 0x54#8)

/-- R71, R85: words written out from the encoding decode to the commands they stand for. -/
def Obligations.SampleWordsDecode : Prop :=
  decode 0x100000FFE5#40 = .ok (.cmod (BitVec.ofInt 16 (-27))) ∧ decode 0x110009001A#40 = .ok (.gcd 9 26) ∧
  decode 0x2000000017#40 = .ok (.decd 23) ∧ decode 0x3100008000#40 = .ok (.ldk12 (BitVec.ofInt 16 (-32768))) ∧
  decode 0x4300000000#40 = .ok .inv22 ∧ decode 0x5400000048#40 = .ok (.putc 0x48) ∧
  decode 0x0100000000#40 = .ok .rdsr

/-- R85: lines of assembler text and their words; a quoted character is its code, an operand in hexadecimal is the field
as is, a comment is dropped. Two points are the model's choice and no rule's, log entry 6 (DESIGN CHOICE): that the blank
before the `;` of `FIN ;x` may stand there, and that the line `DECD 32`, whose operand is out of its range, is refused. -/
def Obligations.SampleLinesAssemble : Prop :=
  assembleLine ['G', 'C', 'D', ' ', '9', ',', ' ', '2', '6'] = some 0x110009001A#40 ∧
  assembleLine ['C', 'M', 'O', 'D', ' ', '-', '2', '7'] = some 0x100000FFE5#40 ∧
  assembleLine ['L', 'D', 'K', '1', '1', ' ', '0', 'x', 'F', 'F', 'E', '9'] = some 0x300000FFE9#40 ∧
  assembleLine ['P', 'U', 'T', 'C', ' ', '\'', 'H', '\''] = some 0x5400000048#40 ∧
  assembleLine ['F', 'I', 'N', ' ', ';', 'x'] = some 0x5500000000#40 ∧
  assembleLine ['D', 'E', 'C', 'D', ' ', '3', '2'] = none

/-! ### Steps, ports and reset -/

/-- R52: with the engine ready, the step that a presented word makes is exactly what the decoded command does, the move
being spent. -/
def Obligations.StepRunsTheDecodedCommand : Prop :=
  ∀ (s : State) (w : CmdWord) (rest : List HostMove) (i : Instr),
    s.host = .command w :: rest → s.rsp = none → decode w = .ok i → step s = exec i { s with host := rest }

/-- Log entry 1 (the model's choice): a word placed by `withFetchWord` is the command the very next step runs. -/
def Obligations.FetchedWordRunsNext : Prop :=
  ∀ (s : State) (nbits w : Nat) (i : Instr), decodeTableWord nbits w = some i →
    step (s.withFetchWord nbits w) = exec i { s with rsp := none }

/-- `00_scope.md` R7, `70_reset_and_hazards.md` R261 (the first two clauses): every command and every word is answered in
every state, by one next state and one response, and leaves the host's moves alone. Third clause: every step of the
machine answers a next state; where the step offers a word while a response is outstanding, takes a response with none on
offer, or has no host move, that is the model's, log entries 2 and 3 (DEDUCED). -/
def Obligations.EveryCommandIsAnswered : Prop :=
  (∀ (i : Instr) (s : State), ∃ e r, exec i s = .next { engine := e, rsp := some r, host := s.host }) ∧
  (∀ (w : CmdWord) (s : State), ∃ e r, accept w s = .next { engine := e, rsp := some r, host := s.host }) ∧
  ∀ s : State, ∃ t, step s = .next t

/-- `20_memory.md` R51, R52: from the acceptance of a command until its response is taken no other command is accepted;
while a response is outstanding only a take or a reset ends it, and only a reset changes the engine. R7 ("Nothing else
changes engine state"), R56, `70_reset_and_hazards.md` R250: in any state a step that changes the engine is a reset or
the acceptance of a command by a ready engine; taking a response changes only that it is no longer on offer. What a
command offered too early and a take with nothing on offer do (nothing) is log entry 2, and what a step without a host
move does (nothing) is log entry 3. -/
def Obligations.OneCommandOutstanding : Prop :=
  ∀ s t : State, step s = .next t →
    (cmdReady s = true → cmdReady t = false →
      ∃ w rest, s.host = .command w :: rest ∧ accept w { s with host := rest } = .next t) ∧
    (cmdReady s = false →
      (t.engine = s.engine ∧ t.rsp = s.rsp) ∨
      (t.engine = s.engine ∧ t.rsp = none ∧ ∃ rest, s.host = .take :: rest) ∨
      (t.engine = Engine.reset ∧ t.rsp = none ∧ ∃ rest, s.host = .reset :: rest)) ∧
    (t.engine ≠ s.engine →
      (t.engine = Engine.reset ∧ ∃ rest, s.host = .reset :: rest) ∨
      (s.rsp = none ∧ ∃ w rest, s.host = .command w :: rest ∧ accept w { s with host := rest } = .next t)) ∧
    ∀ rest, s.host = .take :: rest → t = { s with rsp := none, host := rest }

/-- R52, R59: a program presented through the ports, each response taken before the next word, leaves the machine as the
run of its words one transition each does. -/
def Obligations.PortRunIsTheRunOfTheWords : Prop :=
  ∀ (ws : List CmdWord) (s : State), s.rsp = none → s.host = [] →
    Host.Core.run core (2 * ws.length) { s with host := ws.flatMap fun w => [.command w, .take] } =
      .next (runWords ws s).1

/-- `70_reset_and_hazards.md` R251: reset, in any state and with or without an outstanding command, puts every register
to 0, and `RDSR` right after it answers `DATA = 0`. R252: `rsp_valid` is 0 after reset. -/
def Obligations.ResetPutsEveryRegisterToZero : Prop :=
  (∀ (s : State) (rest : List HostMove), s.host = .reset :: rest →
    step s = .next
      { engine := { k11 := 0, k12 := 0, k21 := 0, k22 := 0, kv := 0, fsm := .idle, mode := .enc,
                    m11 := 0, m12 := 0, m21 := 0, m22 := 0, first := 0, half := false, anychar := false },
        rsp := none, host := rest }) ∧
  State.reset.engine = { k11 := 0, k12 := 0, k21 := 0, k22 := 0, kv := 0, fsm := .idle, mode := .enc,
                         m11 := 0, m12 := 0, m21 := 0, m22 := 0, first := 0, half := false, anychar := false } ∧
  State.reset.rsp = none ∧ exec .rdsr State.reset = .next { State.reset with rsp := some (respond .ok 0 0) }

/-! ### The invariants of `10_state.md` R35 -/

/-- R35 at reset. The spec marks it `[derived]`. -/
def Obligations.ResetMeetsTheInvariants : Prop := EngineInv State.reset.engine

/-- R35: every step keeps the invariants, from every state that meets them. The spec marks it `[derived]`. -/
def Obligations.EveryStepKeepsTheInvariants : Prop :=
  ∀ s t : State, EngineInv s.engine → step s = .next t → EngineInv t.engine

/-! ### Whole-machine rules -/

/-- `30_encoding.md` R88, `44_cipher_engine.md` R183: a command that the FSM state does not let execute is answered
with the status the table gives and changes no state, whatever its operands. -/
def Obligations.CommandsOutOfPlaceChangeNothing : Prop :=
  ∀ (i : Instr) (s : State),
    (s.engine.fsm = .fault → i ≠ .rdsr →
      exec i s = .next { s with rsp := some (respond .internalInconsistency 0 0) }) ∧
    (s.engine.fsm = .run → i ≠ .rdsr → i ≠ .fin → (∀ ch, i ≠ .putc ch) →
      exec i s = .next { s with rsp := some (respond .badState 0 0) }) ∧
    (s.engine.fsm = .idle → (i = .fin ∨ ∃ ch, i = .putc ch) →
      exec i s = .next { s with rsp := some (respond .badState 0 0) })

/-- `60_exceptions.md` section 2: in `FAULT`, `RDSR` executes, an illegal word is answered `ILLEGAL_COMMAND`, every other
command is answered `INTERNAL_INCONSISTENCY`, none changes any state, and only a reset leaves it. -/
def Obligations.FaultIsLeftByResetOnly : Prop :=
  ∀ s : State, s.engine.fsm = .fault →
    exec .rdsr s = .next { s with rsp := some (respond .ok 0 (statusRegister s.engine)) } ∧
    (∀ (w : CmdWord) (x : DecodeReject), decode w = .error x →
      accept w s = .next { s with rsp := some (respond .illegalCommand 0 0) }) ∧
    (∀ i : Instr, i ≠ .rdsr → exec i s = .next { s with rsp := some (respond .internalInconsistency 0 0) }) ∧
    ∀ t : State, step s = .next t →
      t.engine = s.engine ∨ (t.engine = Engine.reset ∧ ∃ rest, s.host = .reset :: rest)

/-- `44_cipher_engine.md` R175: the table of transitions. A command moves `FSM` exactly where a row says so, and an
opening command that succeeds sets its `MODE`; every other command leaves `FSM`; in `RUN` every command but `PUTC` and
`FIN` changes nothing; an illegal word changes nothing; reset goes to `IDLE` from any state. "No other transition
exists": a step that moves `FSM` is a reset to `IDLE`, or a ready engine accepting a command whose row makes that move. -/
def Obligations.FsmTransitionsAreTheTable : Prop :=
  (∀ (i : Instr) (s : State), ∃ t, exec i s = .next t ∧
    (∀ f : Fsm, fsmMove s.engine i f → t.engine.fsm = f) ∧
    ((∀ f : Fsm, ¬fsmMove s.engine i f) → t.engine.fsm = s.engine.fsm) ∧
    (s.engine.fsm = .idle → t.engine.fsm = .run → modeOpened i = some t.engine.mode) ∧
    (s.engine.fsm = .run → i ≠ .fin → (∀ ch, i ≠ .putc ch) → t.engine = s.engine)) ∧
  (∀ (w : CmdWord) (x : DecodeReject) (s : State), decode w = .error x →
    ∃ t, accept w s = .next t ∧ t.engine = s.engine) ∧
  (∀ (s : State) (rest : List HostMove), s.host = .reset :: rest →
    ∃ t, step s = .next t ∧ t.engine.fsm = .idle) ∧
  ∀ s t : State, step s = .next t → t.engine.fsm ≠ s.engine.fsm →
    (t.engine.fsm = .idle ∧ ∃ rest, s.host = .reset :: rest) ∨
    (s.rsp = none ∧ ∃ w rest i, s.host = .command w :: rest ∧ decode w = .ok i ∧ fsmMove s.engine i t.engine.fsm)

/-- `10_state.md` R20, R22: the key entries and their valid bits change only at an `LDK` in `IDLE`, at a rejected
`STENC` or `STDEC`, at the `FIN` of an `ENC` or `DEC` session, and at entry to `FAULT`; outside the `LDK`s all five go to
zero. -/
def Obligations.OnlyTheseCommandsWriteTheKey : Prop :=
  ∀ (i : Instr) (s t : State), exec i s = .next t →
    (t.engine.k11 = s.engine.k11 ∧ t.engine.k12 = s.engine.k12 ∧ t.engine.k21 = s.engine.k21 ∧
      t.engine.k22 = s.engine.k22 ∧ t.engine.kv = s.engine.kv) ∨
    (s.engine.fsm = .idle ∧ ∃ v, i = .ldk11 v ∨ i = .ldk12 v ∨ i = .ldk21 v ∨ i = .ldk22 v) ∨
    ((t.engine.k11 = 0 ∧ t.engine.k12 = 0 ∧ t.engine.k21 = 0 ∧ t.engine.k22 = 0 ∧ t.engine.kv = 0) ∧
      (((i = .stenc ∨ i = .stdec) ∧ s.engine.fsm = .idle ∧ t.engine.fsm = .idle) ∨
       (i = .fin ∧ s.engine.fsm = .run ∧ s.engine.mode ≠ .prv) ∨
       (s.engine.fsm = .idle ∧ t.engine.fsm = .fault)))

/-- R26 to R30: the working matrix changes only at a `STENC` or `STDEC` that opens a session, at the `FIN` of a session
and at entry to `FAULT`; `MODE` at those and a `STPRV` that opens one; `FIRST`, `HALF` and `ANYCHAR` at those and a `PUTC`
in a session. In `FAULT` nothing changes them. -/
def Obligations.OnlyTheseCommandsWriteTheSession : Prop :=
  ∀ (i : Instr) (s t : State), exec i s = .next t →
    ((t.engine.m11 = s.engine.m11 ∧ t.engine.m12 = s.engine.m12 ∧ t.engine.m21 = s.engine.m21 ∧
        t.engine.m22 = s.engine.m22) ∨
      ((i = .stenc ∨ i = .stdec) ∧ s.engine.fsm = .idle ∧ t.engine.fsm = .run) ∨
      (i = .fin ∧ s.engine.fsm = .run) ∨ (s.engine.fsm = .idle ∧ t.engine.fsm = .fault)) ∧
    (t.engine.mode = s.engine.mode ∨
      ((i = .stenc ∨ i = .stdec ∨ i = .stprv) ∧ s.engine.fsm = .idle ∧ t.engine.fsm = .run) ∨
      (i = .fin ∧ s.engine.fsm = .run) ∨ (s.engine.fsm = .idle ∧ t.engine.fsm = .fault)) ∧
    ((t.engine.first = s.engine.first ∧ t.engine.half = s.engine.half ∧ t.engine.anychar = s.engine.anychar) ∨
      ((i = .stenc ∨ i = .stdec ∨ i = .stprv) ∧ s.engine.fsm = .idle ∧ t.engine.fsm = .run) ∨
      ((i = .fin ∨ ∃ ch, i = .putc ch) ∧ s.engine.fsm = .run) ∨
      (s.engine.fsm = .idle ∧ t.engine.fsm = .fault))

/-- `20_memory.md` R56: the reading and scalar commands never change state; an `INVij` changes state only when it enters
`FAULT`; loading the same value twice equals loading it once. The spec marks it `[derived]`. -/
def Obligations.ReadingCommandsChangeNothing : Prop :=
  (∀ (i : Instr) (s t : State), exec i s = .next t →
    (i ∈ [Instr.rdsr, .det, .isinv] ∨ (∃ n, i = .cmod n) ∨ (∃ a b, i = .gcd a b) ∨ (∃ a, i = .minv a) ∨
      (∃ a b, i = .mulm a b) ∨ ∃ d, i = .decd d) → t.engine = s.engine) ∧
  (∀ (i : Instr) (s t : State), exec i s = .next t → i ∈ [Instr.inv11, .inv12, .inv21, .inv22] →
    t.engine = s.engine ∨ (s.engine.fsm = .idle ∧ t.engine.fsm = .fault)) ∧
  ∀ (v : KeyWord) (s t : State) (i : Instr), i ∈ [Instr.ldk11 v, .ldk12 v, .ldk21 v, .ldk22 v] →
    exec i s = .next t → exec i t = .next t

/-- `30_encoding.md` R76, R77, R80: a status is one of the eight codes. A response that is not `OK` and not
`NON_INVERTIBLE_KEY` carries `AUX = 0` and `DATA = 0`; `NON_INVERTIBLE_KEY` comes from `STENC` and `STDEC` only, with the
determinant and its residue. An `OK` response has no bit of `AUX` or `DATA` that the command's rule does not define
(`auxBits`, `dataBits`): `AUX` is 0 but for the `OUTV` of a `PUTC` or `FIN`, and one of these without `OUTV` has
`DATA = 0`. -/
def Obligations.UnusedResponseBitsAreZero : Prop :=
  ∀ (w : CmdWord) (s t : State) (r : RspWord), accept w s = .next t → t.rsp = some r →
    (rspSt r).toNat ≤ 7 ∧
    (rspSt r ≠ statusCode .ok → rspSt r ≠ statusCode .nonInvertibleKey → rspAux r = 0 ∧ rspData r = 0) ∧
    (rspSt r = statusCode .nonInvertibleKey →
      (decode w = .ok .stenc ∨ decode w = .ok .stdec) ∧
      ∃ delta : Int,
        delta = s.engine.k11.toInt * s.engine.k22.toInt - s.engine.k12.toInt * s.engine.k21.toInt ∧
        rspAux r = BitVec.ofInt 8 (delta % 26) ∧ rspData r = BitVec.ofInt 32 delta) ∧
    (rspSt r = statusCode .ok →
      ∃ i, decode w = .ok i ∧ rspAux r &&& ~~~auxBits i = 0 ∧ rspData r &&& ~~~dataBits i = 0 ∧
        ((i = .fin ∨ ∃ ch, i = .putc ch) → rspAux r = 0 → rspData r = 0))

/-- R32, R211: the key values, the working matrix and `FIRST` do not show in the answer of `RDSR`. -/
def Obligations.StatusDoesNotShowTheKey : Prop :=
  ∀ s s' t t' : State, s.engine.kv = s'.engine.kv → s.engine.fsm = s'.engine.fsm → s.engine.mode = s'.engine.mode →
    s.engine.half = s'.engine.half → s.engine.anychar = s'.engine.anychar →
    exec .rdsr s = .next t → exec .rdsr s' = .next t' → t.rsp = t'.rsp

/-! ### Arithmetic -/

/-- `40_modular_arithmetic.md` R101, all its properties; and the result is that of the flooring remainder.
The spec marks it `[derived]`. -/
def Obligations.CanonicalResidueLaws : Prop :=
  (∀ n : Int, 0 ≤ cmod26 n ∧ cmod26 n ≤ 25) ∧
  (∀ n : Int, (26 : Int) ∣ n - cmod26 n) ∧
  (∀ n r : Int, 0 ≤ r → r ≤ 25 → (26 : Int) ∣ n - r → r = cmod26 n) ∧
  (∀ n : Int, 0 ≤ n → n ≤ 25 → cmod26 n = n) ∧
  (∀ n k : Int, cmod26 (n + 26 * k) = cmod26 n) ∧
  (∀ a b : Int, cmod26 (a + b) = cmod26 (cmod26 a + cmod26 b)) ∧
  (∀ a b : Int, cmod26 (a * b) = cmod26 (cmod26 a * cmod26 b)) ∧
  (∀ n : Int, cmod26 (-n) = cmod26 (26 - cmod26 n)) ∧
  ∀ n : Int, cmod26 n = Int.fmod n 26

/-- R102, R103: the loop computes the greatest common divisor of the absolute values; its symmetries; its values at zero,
`gcd(0, 0) = 0` among them; its values on the residues. The spec marks the last clause `[derived]`. -/
def Obligations.EuclidComputesTheGreatestCommonDivisor : Prop :=
  (∀ a b : Int, 0 ≤ euclidGcd a b ∧ euclidGcd a b ∣ a ∧ euclidGcd a b ∣ b ∧
    ∀ c : Int, c ∣ a → c ∣ b → c ∣ euclidGcd a b) ∧
  (∀ a : Int, euclidGcd a 0 = |a| ∧ euclidGcd 0 a = |a|) ∧
  (∀ a b : Int, euclidGcd a b = euclidGcd b a ∧ euclidGcd a b = euclidGcd (-a) b ∧
    euclidGcd a b = euclidGcd a (-b)) ∧
  euclidGcd 0 0 = 0 ∧
  ∀ r : Int, 0 ≤ r → r ≤ 25 →
    euclidGcd r 26 = if r = 0 then 26 else if r = 13 then 13 else if r % 2 = 0 then 2 else 1

/-- R104: the search finds the unique inverse exactly for the units modulo 26, and depends on the residue only.
The spec marks the uniqueness `[derived]`. -/
def Obligations.InverseSearchFindsTheUnits : Prop :=
  (∀ a : Int, (∃ x, minv26 a = some x) ↔ euclidGcd (cmod26 a) 26 = 1) ∧
  (∀ a x : Int, minv26 a = some x ↔ 1 ≤ x ∧ x ≤ 25 ∧ cmod26 (a * x) = 1) ∧
  ∀ a b : Int, cmod26 a = cmod26 b → minv26 a = minv26 b

/-- `42_key_validator.md` R143: the determinant of every loadable key lies in its range, both bounds are reached, and the
32-bit field that carries it reads back as the true integer. The spec marks it `[derived]`. -/
def Obligations.DeterminantNeverWraps : Prop :=
  (∀ a b c d : KeyWord,
    -2147450880 ≤ det (keyOf a b c d) ∧ det (keyOf a b c d) ≤ 2147450880 ∧
    (tc32 (det (keyOf a b c d))).toInt = det (keyOf a b c d) ∧
    det (keyOf a b c d) = a.toInt * d.toInt - b.toInt * c.toInt) ∧
  det (keyOf 0x8000 0x8000 0x7FFF 0x8000) = 2147450880 ∧ det (keyOf 0x8000 0x8000 0x8000 0x7FFF) = -2147450880

/-- `42_key_validator.md` R142: a key is invertible exactly when the residue of its determinant is odd and not 13, and
only the residues of its entries count. The spec marks it `[derived]`. -/
def Obligations.InvertibleKeysAreTheOddResidues : Prop :=
  (∀ k : Mat2, isInvertible k = true ↔ det k % 26 % 2 = 1 ∧ det k % 26 ≠ 13) ∧
  ∀ k : Mat2, isInvertible (reduce26 k) = isInvertible k

/-- `43_matrix_inverter.md` R163, R161: the inverter answers exactly on invertible keys; its result has residues for
entries, is a two-sided inverse modulo 26, depends on residues only, is itself invertible, and inverts to the reduced
key; the first canonicalisation does not change the result. The spec marks it `[derived]`. -/
def Obligations.InverterInvertsModulo26 : Prop :=
  (∀ k : Mat2, (∃ n, invert k = some n) ↔ isInvertible k = true) ∧
  (∀ k n : Mat2, invert k = some n →
    (0 ≤ n.a ∧ n.a ≤ 25 ∧ 0 ≤ n.b ∧ n.b ≤ 25 ∧ 0 ≤ n.c ∧ n.c ≤ 25 ∧ 0 ≤ n.d ∧ n.d ≤ 25) ∧
    (cmod26 (n.a * k.a + n.b * k.c) = 1 ∧ cmod26 (n.a * k.b + n.b * k.d) = 0 ∧
      cmod26 (n.c * k.a + n.d * k.c) = 0 ∧ cmod26 (n.c * k.b + n.d * k.d) = 1) ∧
    (cmod26 (k.a * n.a + k.b * n.c) = 1 ∧ cmod26 (k.a * n.b + k.b * n.d) = 0 ∧
      cmod26 (k.c * n.a + k.d * n.c) = 0 ∧ cmod26 (k.c * n.b + k.d * n.d) = 1) ∧
    isInvertible n = true ∧ invert n = some (reduce26 k)) ∧
  (∀ k : Mat2, invert (reduce26 k) = invert k) ∧
  ∀ (x : Int) (k : Mat2), scale26 x (reduce26 k) = scale26 x k

/-- `44_cipher_engine.md` R176, R191: the transform's outputs are residues, and raw and reduced key entries give the
same outputs. The spec marks it `[derived]`. -/
def Obligations.TransformUsesResiduesOnly : Prop :=
  ∀ (m : Mat2) (v : Int × Int),
    0 ≤ (transform m v).1 ∧ (transform m v).1 ≤ 25 ∧ 0 ≤ (transform m v).2 ∧ (transform m v).2 ≤ 25 ∧
    transform (reduce26 m) v = transform m v

/-! ### The commands, one by one: each answers a next state, and which -/

/-- `45_system.md` R210: `RDSR` is legal in every state, answers `OK`, changes nothing, and shows each field at its
place, every other bit 0. -/
def Obligations.RdsrShowsTheStatusRegister : Prop :=
  decode 0x0100000000#40 = .ok .rdsr ∧
  ∀ s : State, ∃ d : BitVec 32, exec .rdsr s = .next { s with rsp := some (respond .ok 0 d) } ∧
    d.extractLsb' 0 2 = fsmCode s.engine.fsm ∧ d.extractLsb' 2 2 = modeCode s.engine.mode ∧
    d.getLsbD 4 = s.engine.half ∧ d.getLsbD 5 = s.engine.anychar ∧ d.extractLsb' 6 2 = 0#2 ∧
    d.extractLsb' 8 4 = s.engine.kv ∧ d.extractLsb' 12 20 = 0#20

/-- `40_modular_arithmetic.md` R107: the encoding of `CMOD`; legal in `IDLE`, where it answers the residue of the signed
operand and changes nothing. -/
def Obligations.CmodAnswersTheResidue : Prop :=
  (∀ n : KeyWord, decode (0x10#8 ++ 0#16 ++ n) = .ok (.cmod n) ∧ legalOnlyInIdle (.cmod n)) ∧
  ∀ (n : KeyWord) (s : State), s.engine.fsm = .idle →
    exec (.cmod n) s = .next { s with rsp := some (respond .ok 0 (BitVec.ofInt 32 (n.toInt % 26))) }

/-- R108: the encoding of `GCD`; legal in `IDLE`, where it answers the greatest common divisor of the absolute values
and changes nothing. -/
def Obligations.GcdAnswersTheGreatestCommonDivisor : Prop :=
  (∀ a b : KeyWord, decode (0x11#8 ++ a ++ b) = .ok (.gcd a b) ∧ legalOnlyInIdle (.gcd a b)) ∧
  ∀ (a b : KeyWord) (s : State), s.engine.fsm = .idle →
    exec (.gcd a b) s = .next { s with rsp := some (respond .ok 0 (BitVec.ofNat 32 (Int.gcd a.toInt b.toInt))) }

/-- R109: the encoding of `MINV`; legal in `IDLE`, where it answers the inverse in 1 … 25 of a unit, and `NO_INVERSE`
otherwise; it changes nothing. -/
def Obligations.MinvAnswersTheInverse : Prop :=
  (∀ a : KeyWord, decode (0x12#8 ++ 0#16 ++ a) = .ok (.minv a) ∧ legalOnlyInIdle (.minv a)) ∧
  ∀ (a : KeyWord) (s : State), s.engine.fsm = .idle →
    (Int.gcd (a.toInt % 26) 26 = 1 → ∃ x : Int, 1 ≤ x ∧ x ≤ 25 ∧ a.toInt * x % 26 = 1 ∧
      exec (.minv a) s = .next { s with rsp := some (respond .ok 0 (BitVec.ofInt 32 x)) }) ∧
    (Int.gcd (a.toInt % 26) 26 ≠ 1 → exec (.minv a) s = .next { s with rsp := some (respond .noInverse 0 0) })

/-- R110: the encoding of `MULM`; legal in `IDLE`, where it answers the residue of the product and changes nothing. -/
def Obligations.MulmAnswersTheProduct : Prop :=
  (∀ a b : KeyWord, decode (0x13#8 ++ a ++ b) = .ok (.mulm a b) ∧ legalOnlyInIdle (.mulm a b)) ∧
  ∀ (a b : KeyWord) (s : State), s.engine.fsm = .idle →
    exec (.mulm a b) s = .next { s with rsp := some (respond .ok 0 (BitVec.ofInt 32 (a.toInt * b.toInt % 26))) }

/-- `41_codec.md` R128: the encoding of `DECD`, whose operand has no sixth bit; legal in `IDLE`, where it answers the
letter of the digit, 26 … 31 being reduced, and changes nothing. -/
def Obligations.DecdAnswersTheLetter : Prop :=
  (∀ d : Digit, decode (0x20#8 ++ 0#27 ++ d) = .ok (.decd d) ∧ legalOnlyInIdle (.decd d)) ∧
  decode 0x2000000020#40 = .error (.mustBeZero 0x20#8) ∧
  ∀ (d : Digit) (s : State), s.engine.fsm = .idle →
    exec (.decd d) s = .next { s with rsp := some (respond .ok 0 (BitVec.ofNat 32 (0x41 + d.toNat % 26))) }

/-- `42_key_validator.md` R140, R149, R150, R151: the encodings of the `LDK`s; legal in `IDLE`, where each stores the
entry as given, sets its valid bit and no other, and changes nothing else. -/
def Obligations.LoadCommandsStoreOneEntry : Prop :=
  (∀ v : KeyWord,
    decode (0x30#8 ++ 0#16 ++ v) = .ok (.ldk11 v) ∧ decode (0x31#8 ++ 0#16 ++ v) = .ok (.ldk12 v) ∧
    decode (0x32#8 ++ 0#16 ++ v) = .ok (.ldk21 v) ∧ decode (0x33#8 ++ 0#16 ++ v) = .ok (.ldk22 v) ∧
    ∀ i ∈ [Instr.ldk11 v, .ldk12 v, .ldk21 v, .ldk22 v], legalOnlyInIdle i) ∧
  ∀ (v : KeyWord) (s : State), s.engine.fsm = .idle →
    exec (.ldk11 v) s = .next { s with
      engine := { s.engine with k11 := v, kv := s.engine.kv ||| 0b0001#4 }, rsp := some (respond .ok 0 0) } ∧
    exec (.ldk12 v) s = .next { s with
      engine := { s.engine with k12 := v, kv := s.engine.kv ||| 0b0010#4 }, rsp := some (respond .ok 0 0) } ∧
    exec (.ldk21 v) s = .next { s with
      engine := { s.engine with k21 := v, kv := s.engine.kv ||| 0b0100#4 }, rsp := some (respond .ok 0 0) } ∧
    exec (.ldk22 v) s = .next { s with
      engine := { s.engine with k22 := v, kv := s.engine.kv ||| 0b1000#4 }, rsp := some (respond .ok 0 0) }

/-- R144: the encoding of `DET`; legal in `IDLE`, where it answers `MISSING_KEY` when an entry is absent and otherwise
the exact determinant in two's complement; it changes nothing. -/
def Obligations.DetAnswersTheDeterminant : Prop :=
  decode 0x3400000000#40 = .ok .det ∧ legalOnlyInIdle .det ∧
  ∀ s : State, s.engine.fsm = .idle →
    (s.engine.kv ≠ 0b1111#4 → exec .det s = .next { s with rsp := some (respond .missingKey 0 0) }) ∧
    (s.engine.kv = 0b1111#4 →
      ∃ d : BitVec 32, exec .det s = .next { s with rsp := some (respond .ok 0 d) } ∧
        d.toInt = s.engine.k11.toInt * s.engine.k22.toInt - s.engine.k12.toInt * s.engine.k21.toInt)

/-- R145: the encoding of `ISINV`; legal in `IDLE`, where it answers `MISSING_KEY` when an entry is absent and otherwise
1 exactly when the determinant's residue is coprime to 26, else 0; it changes nothing. -/
def Obligations.IsinvAnswersTheTest : Prop :=
  decode 0x3500000000#40 = .ok .isinv ∧ legalOnlyInIdle .isinv ∧
  ∀ s : State, s.engine.fsm = .idle →
    (s.engine.kv ≠ 0b1111#4 → exec .isinv s = .next { s with rsp := some (respond .missingKey 0 0) }) ∧
    (s.engine.kv = 0b1111#4 →
      exec .isinv s = .next { s with rsp := some (respond .ok 0
        (if Int.gcd ((s.engine.k11.toInt * s.engine.k22.toInt - s.engine.k12.toInt * s.engine.k21.toInt) % 26) 26 = 1
          then 1 else 0)) })

/-- R146, R221: the commands that read the key answer `MISSING_KEY` when an entry is absent: the readers change nothing,
`STENC` and `STDEC` invalidate the key. -/
def Obligations.AbsentEntriesAreMissingKey : Prop :=
  ∀ s : State, s.engine.fsm = .idle → s.engine.kv ≠ 0b1111#4 →
    (∀ i ∈ [Instr.det, .isinv, .inv11, .inv12, .inv21, .inv22],
      exec i s = .next { s with rsp := some (respond .missingKey 0 0) }) ∧
    ∀ i ∈ [Instr.stenc, .stdec],
      exec i s = .next { s with
        engine := { s.engine with k11 := 0, k12 := 0, k21 := 0, k22 := 0, kv := 0 },
        rsp := some (respond .missingKey 0 0) }

/-- `43_matrix_inverter.md` R164, R167, R168, R169: the encodings of the `INVij`; legal in `IDLE`, where they answer
`MISSING_KEY` when an entry is absent; with an invertible key the entries of adjugate times inverse determinant,
reduced, changing nothing; and with a key that is not invertible they enter `FAULT`. -/
def Obligations.InverseEntriesAreAnswered : Prop :=
  (decode 0x4000000000#40 = .ok .inv11 ∧ decode 0x4100000000#40 = .ok .inv12 ∧
    decode 0x4200000000#40 = .ok .inv21 ∧ decode 0x4300000000#40 = .ok .inv22) ∧
  (∀ i ∈ [Instr.inv11, .inv12, .inv21, .inv22], legalOnlyInIdle i) ∧
  (∀ s : State, s.engine.fsm = .idle → s.engine.kv ≠ 0b1111#4 → ∀ i ∈ [Instr.inv11, .inv12, .inv21, .inv22],
    exec i s = .next { s with rsp := some (respond .missingKey 0 0) }) ∧
  (∀ (s : State) (x : Int), s.engine.fsm = .idle → s.engine.kv = 0b1111#4 → 1 ≤ x → x ≤ 25 →
    (s.engine.k11.toInt * s.engine.k22.toInt - s.engine.k12.toInt * s.engine.k21.toInt) * x % 26 = 1 →
    exec .inv11 s = .next { s with rsp := some (respond .ok 0 (BitVec.ofInt 32 (s.engine.k22.toInt * x % 26))) } ∧
    exec .inv12 s = .next { s with rsp := some (respond .ok 0 (BitVec.ofInt 32 (-s.engine.k12.toInt * x % 26))) } ∧
    exec .inv21 s = .next { s with rsp := some (respond .ok 0 (BitVec.ofInt 32 (-s.engine.k21.toInt * x % 26))) } ∧
    exec .inv22 s = .next { s with rsp := some (respond .ok 0 (BitVec.ofInt 32 (s.engine.k11.toInt * x % 26))) }) ∧
  ∀ s : State, s.engine.fsm = .idle → s.engine.kv = 0b1111#4 →
    Int.gcd ((s.engine.k11.toInt * s.engine.k22.toInt - s.engine.k12.toInt * s.engine.k21.toInt) % 26) 26 ≠ 1 →
    ∀ i ∈ [Instr.inv11, .inv12, .inv21, .inv22],
      exec i s = .next { s with
        engine := { k11 := 0, k12 := 0, k21 := 0, k22 := 0, kv := 0, fsm := .fault, mode := .enc,
                    m11 := 0, m12 := 0, m21 := 0, m22 := 0, first := 0, half := false, anychar := false },
        rsp := some (respond .internalInconsistency 0 0) }

/-- `44_cipher_engine.md` R177: the encoding of `STENC`; legal in `IDLE`, where it rejects and consumes a key that is
absent or not invertible, and otherwise opens an `ENC` session whose working matrix is the key reduced modulo 26, the
key staying. -/
def Obligations.StencOpensAnEncryptSession : Prop :=
  decode 0x5000000000#40 = .ok .stenc ∧ legalOnlyInIdle .stenc ∧
  (∀ s : State, s.engine.fsm = .idle → s.engine.kv ≠ 0b1111#4 →
    exec .stenc s = .next { s with
      engine := { s.engine with k11 := 0, k12 := 0, k21 := 0, k22 := 0, kv := 0 },
      rsp := some (respond .missingKey 0 0) }) ∧
  (∀ (s : State) (delta : Int), s.engine.fsm = .idle → s.engine.kv = 0b1111#4 →
    delta = s.engine.k11.toInt * s.engine.k22.toInt - s.engine.k12.toInt * s.engine.k21.toInt →
    Int.gcd (delta % 26) 26 ≠ 1 →
    exec .stenc s = .next { s with
      engine := { s.engine with k11 := 0, k12 := 0, k21 := 0, k22 := 0, kv := 0 },
      rsp := some (respond .nonInvertibleKey (BitVec.ofInt 8 (delta % 26)) (BitVec.ofInt 32 delta)) }) ∧
  ∀ s : State, s.engine.fsm = .idle → s.engine.kv = 0b1111#4 →
    Int.gcd ((s.engine.k11.toInt * s.engine.k22.toInt - s.engine.k12.toInt * s.engine.k21.toInt) % 26) 26 = 1 →
    exec .stenc s = .next { s with
      engine := { s.engine with
        m11 := BitVec.ofInt 5 (s.engine.k11.toInt % 26), m12 := BitVec.ofInt 5 (s.engine.k12.toInt % 26),
        m21 := BitVec.ofInt 5 (s.engine.k21.toInt % 26), m22 := BitVec.ofInt 5 (s.engine.k22.toInt % 26),
        mode := .enc, half := false, first := 0, anychar := false, fsm := .run },
      rsp := some (respond .ok 0 0) }

/-- R178: the encoding of `STDEC`; legal in `IDLE`, where it rejects and consumes a key that is absent or not invertible,
as `STENC` does, and otherwise opens a `DEC` session whose working matrix is the inverse of the key modulo 26, the key
staying. The rule's third arm is unreachable (`StdecNeverFindsAnInconsistency`). -/
def Obligations.StdecOpensADecryptSession : Prop :=
  decode 0x5100000000#40 = .ok .stdec ∧ legalOnlyInIdle .stdec ∧
  (∀ s : State, s.engine.fsm = .idle → s.engine.kv ≠ 0b1111#4 →
    exec .stdec s = .next { s with
      engine := { s.engine with k11 := 0, k12 := 0, k21 := 0, k22 := 0, kv := 0 },
      rsp := some (respond .missingKey 0 0) }) ∧
  (∀ (s : State) (delta : Int), s.engine.fsm = .idle → s.engine.kv = 0b1111#4 →
    delta = s.engine.k11.toInt * s.engine.k22.toInt - s.engine.k12.toInt * s.engine.k21.toInt →
    Int.gcd (delta % 26) 26 ≠ 1 →
    exec .stdec s = .next { s with
      engine := { s.engine with k11 := 0, k12 := 0, k21 := 0, k22 := 0, kv := 0 },
      rsp := some (respond .nonInvertibleKey (BitVec.ofInt 8 (delta % 26)) (BitVec.ofInt 32 delta)) }) ∧
  ∀ (s : State) (x : Int), s.engine.fsm = .idle → s.engine.kv = 0b1111#4 → 1 ≤ x → x ≤ 25 →
    (s.engine.k11.toInt * s.engine.k22.toInt - s.engine.k12.toInt * s.engine.k21.toInt) * x % 26 = 1 →
    exec .stdec s = .next { s with
      engine := { s.engine with
        m11 := BitVec.ofInt 5 (s.engine.k22.toInt * x % 26), m12 := BitVec.ofInt 5 (-s.engine.k12.toInt * x % 26),
        m21 := BitVec.ofInt 5 (-s.engine.k21.toInt * x % 26), m22 := BitVec.ofInt 5 (s.engine.k11.toInt * x % 26),
        mode := .dec, half := false, first := 0, anychar := false, fsm := .run },
      rsp := some (respond .ok 0 0) }

/-- `42_key_validator.md` R148, `60_exceptions.md` R222: `STENC` and `STDEC` on a key that is present but not invertible
answer `NON_INVERTIBLE_KEY` with the raw determinant and its residue, and invalidate the key. -/
def Obligations.RejectedKeyIsReportedAndConsumed : Prop :=
  ∀ (s : State) (delta : Int), s.engine.fsm = .idle → s.engine.kv = 0b1111#4 →
    delta = s.engine.k11.toInt * s.engine.k22.toInt - s.engine.k12.toInt * s.engine.k21.toInt →
    Int.gcd (delta % 26) 26 ≠ 1 →
    ∀ i ∈ [Instr.stenc, .stdec],
      exec i s = .next { s with
        engine := { s.engine with k11 := 0, k12 := 0, k21 := 0, k22 := 0, kv := 0 },
        rsp := some (respond .nonInvertibleKey (BitVec.ofInt 8 (delta % 26)) (BitVec.ofInt 32 delta)) }

/-- `44_cipher_engine.md` R193: `STDEC` never answers `INTERNAL_INCONSISTENCY` outside `FAULT`, and never enters
`FAULT`. The spec marks it `[derived]`. -/
def Obligations.StdecNeverFindsAnInconsistency : Prop :=
  ∀ s t : State, s.engine.fsm ≠ .fault → exec .stdec s = .next t →
    t.engine.fsm ≠ .fault ∧ ∀ r, t.rsp = some r → rspSt r ≠ statusCode .internalInconsistency

/-- `42_key_validator.md` R147: in `IDLE` with all entries present, `STENC` and `STDEC` answer `OK` for exactly the keys
for which `ISINV` answers 1, and a key that they reject gets the same response and the same state from both. -/
def Obligations.GateIsTheSameForBothDirections : Prop :=
  ∀ s e d v : State, s.engine.fsm = .idle → s.engine.kv = 0b1111#4 →
    exec .stenc s = .next e → exec .stdec s = .next d → exec .isinv s = .next v →
    (e.rsp.map rspSt = some (statusCode .ok) ↔ v.rsp.map rspData = some 1) ∧
    (d.rsp.map rspSt = some (statusCode .ok) ↔ v.rsp.map rspData = some 1) ∧
    (e.rsp.map rspSt ≠ some (statusCode .ok) → d = e)

/-- R179: the encoding of `STPRV`; legal in `IDLE`, where it opens a `PRV` session, whatever key is loaded, and changes
neither the key nor the working matrix. -/
def Obligations.StprvOpensAPreview : Prop :=
  decode 0x5200000000#40 = .ok .stprv ∧ legalOnlyInIdle .stprv ∧
  ∀ s : State, s.engine.fsm = .idle →
    exec .stprv s = .next { s with
      engine := { s.engine with mode := .prv, half := false, first := 0, anychar := false, fsm := .run },
      rsp := some (respond .ok 0 0) }

/-- R180, `41_codec.md` R122: the encoding of `PUTC`; legal in `RUN`. A character that is no letter sets `ANYCHAR` and
does nothing else. Of letter number `d`, upper or lower case, the first of a pair is stored and answered without a pair;
the second completes the pair, answered as raw digits in mode `PRV` and as the letters of the transformed pair
otherwise. Nothing else changes. -/
def Obligations.PutcStoresOrCompletesAPair : Prop :=
  (∀ ch : Char8, decode (0x54#8 ++ 0#24 ++ ch) = .ok (.putc ch) ∧ legalOnlyInRun (.putc ch)) ∧
  (∀ (ch : Char8) (s : State), s.engine.fsm = .run →
    ¬(0x41 ≤ ch.toNat ∧ ch.toNat ≤ 0x5A) → ¬(0x61 ≤ ch.toNat ∧ ch.toNat ≤ 0x7A) →
    exec (.putc ch) s = .next { s with engine := { s.engine with anychar := true }, rsp := some (respond .ok 0 0) }) ∧
  ∀ (ch : Char8) (d : Nat) (s : State), s.engine.fsm = .run → d ≤ 25 →
    (ch.toNat = 0x41 + d ∨ ch.toNat = 0x61 + d) →
    (s.engine.half = false →
      exec (.putc ch) s = .next { s with
        engine := { s.engine with anychar := true, half := true, first := BitVec.ofNat 5 d },
        rsp := some (respond .ok 0 0) }) ∧
    (s.engine.half = true → s.engine.mode = .prv →
      exec (.putc ch) s = .next { s with
        engine := { s.engine with anychar := true, half := false, first := 0 },
        rsp := some (respond .ok 1 (BitVec.ofNat 32 (256 * s.engine.first.toNat + d))) }) ∧
    (s.engine.half = true → s.engine.mode ≠ .prv →
      exec (.putc ch) s = .next { s with
        engine := { s.engine with anychar := true, half := false, first := 0 },
        rsp := some (respond .ok 1 (BitVec.ofNat 32
          (256 * (0x41 + (s.engine.m11.toNat * s.engine.first.toNat + s.engine.m12.toNat * d) % 26) +
            (0x41 + (s.engine.m21.toNat * s.engine.first.toNat + s.engine.m22.toNat * d) % 26)))) })

/-- R181, R190: the encoding of `FIN`; legal in `RUN`, where it ends the call: a `DEC` session without any `PUTC`
answers `EMPTY_INPUT`; an even number of letters answers no pair; an odd one answers the pair padded with 23. An `ENC`
or `DEC` call leaves the engine in its reset state; a `PRV` call leaves the key and its valid bits, everything else at
reset. -/
def Obligations.FinEndsTheCall : Prop :=
  decode 0x5500000000#40 = .ok .fin ∧ legalOnlyInRun .fin ∧
  ∀ (s : State) (e : Engine), s.engine.fsm = .run →
    e = (if s.engine.mode = .prv then
          { Engine.reset with k11 := s.engine.k11, k12 := s.engine.k12, k21 := s.engine.k21, k22 := s.engine.k22,
                              kv := s.engine.kv }
        else Engine.reset) →
    (s.engine.mode = .dec → s.engine.anychar = false →
      exec .fin s = .next { s with engine := e, rsp := some (respond .emptyInput 0 0) }) ∧
    (¬(s.engine.mode = .dec ∧ s.engine.anychar = false) → s.engine.half = false →
      exec .fin s = .next { s with engine := e, rsp := some (respond .ok 0 0) }) ∧
    (s.engine.mode = .prv → s.engine.half = true →
      exec .fin s = .next { s with
        engine := e, rsp := some (respond .ok 1 (BitVec.ofNat 32 (256 * s.engine.first.toNat + 23))) }) ∧
    (s.engine.mode ≠ .prv → ¬(s.engine.mode = .dec ∧ s.engine.anychar = false) → s.engine.half = true →
      exec .fin s = .next { s with
        engine := e,
        rsp := some (respond .ok 1 (BitVec.ofNat 32
          (256 * (0x41 + (s.engine.m11.toNat * s.engine.first.toNat + s.engine.m12.toNat * 23) % 26) +
            (0x41 + (s.engine.m21.toNat * s.engine.first.toNat + s.engine.m22.toNat * 23) % 26)))) })

/-! ### Whole calls (`44_cipher_engine.md` section 4) -/

/-- `41_codec.md` R127: the pairs of a text: `ceil(n / 2)` of them for `n` letters, the letters' digits in order, the
last padded with 23 when `n` is odd. The spec marks it `[derived]`. -/
def Obligations.EncodedTextIsItsDigitsInPairs : Prop :=
  ∀ t : List Char8,
    (encodeText t).length = ((t.filter isLetter).length + 1) / 2 ∧
    (encodeText t).flatMap (fun p => [p.1, p.2]) =
      (t.filter isLetter).map digitOf ++ (if (t.filter isLetter).length % 2 = 1 then [23#5] else [])

/-- R126: decoding the pairs of a text gives the text stripped of non-letters, uppercased, and padded with `X` to even
length. The spec marks it `[derived]`. -/
def Obligations.CodecRoundTripIsTheNormalText : Prop :=
  ∀ t : List Char8, (encodeText t).flatMap (fun p => [letterOf p.1, letterOf p.2]) = normalText t

/-- `44_cipher_engine.md` R187: from any state in `IDLE`, the `ENCRYPT` command sequence with an invertible key ends
`Ok`, its output is the transform of the encoded text under the key, decoded, and the engine is back in its reset
state. The spec marks it `[derived]`. -/
def Obligations.EncryptCallComputesTheCipher : Prop :=
  ∀ (s : State) (t : List Char8) (a b c d : KeyWord), s.engine.fsm = .idle → isInvertible (keyOf a b c d) = true →
    callResult (runPseudo (.encrypt t a b c d) s).2 = .ok (cipherText (reduce26 (keyOf a b c d)) t) ∧
    (runPseudo (.encrypt t a b c d) s).1.engine = Engine.reset

/-- R188, R184: from any state in `IDLE`, the `DECRYPT` command sequence with an invertible key and a text that is not
empty ends `Ok` with the transform of the encoded text under the inverse; with the empty text it ends `EMPTY_INPUT`;
either way the engine is back in its reset state. The spec marks it `[derived]`. -/
def Obligations.DecryptCallComputesTheInverseCipher : Prop :=
  ∀ (s : State) (t : List Char8) (a b c d : KeyWord) (n : Mat2), s.engine.fsm = .idle →
    invert (keyOf a b c d) = some n →
    (t ≠ [] → callResult (runPseudo (.decrypt t a b c d) s).2 = .ok (cipherText n t)) ∧
    (t = [] → callResult (runPseudo (.decrypt t a b c d) s).2 = .err (statusCode .emptyInput) 0 0) ∧
    (runPseudo (.decrypt t a b c d) s).1.engine = Engine.reset

/-- R187, R188, R185, R148: with a key that is not invertible both calls end with the error that carries the determinant
and its residue, whatever the text, produce no output, and leave the engine in its reset state when it was so but for
the key. The spec marks it `[derived]`. -/
def Obligations.RejectedCallsGiveNoOutput : Prop :=
  ∀ (s : State) (t : List Char8) (a b c d : KeyWord) (p : Pseudo), s.engine.fsm = .idle → EngineInv s.engine →
    isInvertible (keyOf a b c d) = false → p ∈ [Pseudo.encrypt t a b c d, .decrypt t a b c d] →
    callResult (runPseudo p s).2 = .err (statusCode .nonInvertibleKey)
      (BitVec.ofInt 8 (det (keyOf a b c d) % 26)) (BitVec.ofInt 32 (det (keyOf a b c d))) ∧
    outputText (runPseudo p s).2 = [] ∧ (runPseudo p s).1.engine = Engine.reset

/-- R189, `41_codec.md` R129: from any state in `IDLE`, the `PREVIEW` command sequence ends `Ok`, its output is the
digit pairs of the text, and the key and its valid bits are as they were. The spec marks it `[derived]`. -/
def Obligations.PreviewCallReturnsTheDigitPairs : Prop :=
  ∀ (s : State) (t : List Char8), s.engine.fsm = .idle →
    callResult (runPseudo (.preview t) s).2 =
      .ok ((encodeText t).flatMap fun p => [p.1.setWidth 8, p.2.setWidth 8]) ∧
    (runPseudo (.preview t) s).1.engine =
      { Engine.reset with k11 := s.engine.k11, k12 := s.engine.k12, k21 := s.engine.k21, k22 := s.engine.k22,
                          kv := s.engine.kv }

/-- R192: for a text with at least one letter, decrypting what encrypting gave, with the same invertible key, gives the
text stripped of non-letters, uppercased and padded. For a text without letters the encryption is empty and decrypting
it answers `EMPTY_INPUT` (R184; log entry 7). The two calls may start in any states in `IDLE`.
The spec marks it `[derived]`. -/
def Obligations.DecryptionUndoesEncryption : Prop :=
  ∀ (s s' : State) (t u : List Char8) (a b c d : KeyWord), s.engine.fsm = .idle → s'.engine.fsm = .idle →
    isInvertible (keyOf a b c d) = true → callResult (runPseudo (.encrypt t a b c d) s).2 = .ok u →
    (t.filter isLetter ≠ [] → callResult (runPseudo (.decrypt u a b c d) s').2 = .ok (normalText t)) ∧
    (t.filter isLetter = [] →
      u = [] ∧ callResult (runPseudo (.decrypt u a b c d) s').2 = .err (statusCode .emptyInput) 0 0)

/-- R186, R196: a call's responses are a function of its command words alone: whatever earlier calls left in `IDLE`
(invariants met), the same call answers the same responses. The spec marks it `[derived]`. -/
def Obligations.CallsAreIndependent : Prop :=
  ∀ (s s' : State) (t : List Char8) (a b c d : KeyWord) (p : Pseudo), s.engine.fsm = .idle → s'.engine.fsm = .idle →
    EngineInv s.engine → EngineInv s'.engine →
    p ∈ [Pseudo.encrypt t a b c d, .decrypt t a b c d, .preview t] →
    (runPseudo p s).2 = (runPseudo p s').2

/-- `30_encoding.md` R86, `44_cipher_engine.md` R183: the pseudo-commands outside `IDLE`. `ENCRYPT` and `DECRYPT` stop after
five words turned away, nothing changed. `PREVIEW` has no stop rule and issues its whole expansion: in `RUN`, `STPRV` is
turned away, the rest acts on the open session and ends its call; in `FAULT` every word gets the sticky status. That
R16's end of a call does not stop `PREVIEW` is log entry 11 (DEDUCED). -/
def Obligations.CallsOutsideIdleIssueTheirExpansion : Prop :=
  (∀ (s : State) (t : List Char8) (a b c d : KeyWord), ∀ p ∈ [Pseudo.encrypt t a b c d, .decrypt t a b c d],
    (s.engine.fsm = .run →
      runPseudo p s = ({ s with rsp := none }, List.replicate 5 (respond .badState 0 0))) ∧
    (s.engine.fsm = .fault →
      runPseudo p s = ({ s with rsp := none }, List.replicate 5 (respond .internalInconsistency 0 0)))) ∧
  ∀ (s : State) (t : List Char8),
    (s.engine.fsm = .run →
      runPseudo (.preview t) s =
        ((runWords ((t.map fun ch => encode (.putc ch)) ++ [encode .fin]) s).1,
          respond .badState 0 0 :: (runWords ((t.map fun ch => encode (.putc ch)) ++ [encode .fin]) s).2) ∧
      (runPseudo (.preview t) s).2.length = t.length + 2 ∧
      (runPseudo (.preview t) s).1.engine =
        (if s.engine.mode = .prv then
          { Engine.reset with k11 := s.engine.k11, k12 := s.engine.k12, k21 := s.engine.k21, k22 := s.engine.k22,
                              kv := s.engine.kv }
        else Engine.reset)) ∧
    (s.engine.fsm = .fault →
      runPseudo (.preview t) s =
        ({ s with rsp := none }, List.replicate (t.length + 2) (respond .internalInconsistency 0 0)))
end

