-- ==== Sys2Proof/Laws/Arithmetic.lean ====
section
/-! SUPPORT. The arithmetic of the rules, related to Lean's own: what each function says about integers. -/

namespace Sys2Proof.Machine

/-- Sign extension is the two's-complement reading of the field (`00_scope.md` R11). -/
theorem sext16_eq_toInt (f : KeyWord) : sext16 f = f.toInt := by
  have := f.isLt
  unfold sext16
  rw [BitVec.toInt_eq_toNat_cond]
  split <;> split <;> omega

/-- The range of an `s16` operand (R71). -/
theorem sext16_bounds (f : KeyWord) : -32768 ≤ sext16 f ∧ sext16 f ≤ 32767 := by
  have := f.isLt
  unfold sext16
  split <;> omega

/-- `cmod26` is the residue of the flooring division, whatever the sign (`40_modular_arithmetic.md` R101). -/
theorem cmod26_eq_emod (n : Int) : cmod26 n = n % 26 := by
  simp only [cmod26, trem, Sys2Proof.Config.modulus]
  rcases le_total 0 n with hn | hn
  · rw [Int.tmod_eq_emod_of_nonneg hn, Int.tmod_eq_emod_of_nonneg (by omega)]
    omega
  · have h1 : Int.tmod n 26 = -((-n) % 26) := by
      rw [← Int.tmod_eq_emod_of_nonneg (by omega), Int.neg_tmod, neg_neg]
    rw [h1, Int.tmod_eq_emod_of_nonneg (by omega)]
    omega

theorem cmod26_bounds (n : Int) : 0 ≤ cmod26 n ∧ cmod26 n ≤ 25 := by
  rw [cmod26_eq_emod]
  omega

theorem cmod26_of_residue {n : Int} (h : 0 ≤ n) (h' : n ≤ 25) : cmod26 n = n := by
  rw [cmod26_eq_emod]
  omega

@[simp] theorem cmod26_cmod26 (n : Int) : cmod26 (cmod26 n) = cmod26 n := by
  simp only [cmod26_eq_emod]
  omega

theorem mulm26_eq_emod (a b : Int) : mulm26 a b = a * b % 26 := cmod26_eq_emod _

/-- Euclid's loop on naturals, with enough fuel, ends at the greatest common divisor (R102). -/
theorem euclidLoop_eq_gcd (fuel x y : Nat) (h : y ≤ fuel) : euclidLoop fuel x y = Nat.gcd x y := by
  induction fuel generalizing x y with
  | zero =>
    obtain rfl : y = 0 := by omega
    simp [euclidLoop]
  | succ n ih =>
    unfold euclidLoop
    split
    · rename_i h0
      obtain rfl : y = 0 := by exact_mod_cast h0
      simp
    · rename_i h0
      have hy : 0 < y := by omega
      have ht : trem (x : Int) (y : Int) = ((x % y : Nat) : Int) := by
        unfold trem
        rw [Int.tmod_eq_emod_of_nonneg (by omega), Int.natCast_emod]
      have hlt := Nat.mod_lt x hy
      rw [ht, ih y (x % y) (by omega), Nat.gcd_comm y, ← Nat.gcd_rec, Nat.gcd_comm]

/-- The pseudocode of R102 computes the greatest common divisor of the absolute values. -/
theorem euclidGcd_eq (a b : Int) : euclidGcd a b = Int.gcd a b :=
  euclidLoop_eq_gcd _ _ _ (Nat.le_refl _)

theorem isInvertible_iff (k : Mat2) : isInvertible k = true ↔ Int.gcd (det k % 26) 26 = 1 := by
  simp only [isInvertible, euclidGcd_eq, cmod26_eq_emod, beq_iff_eq, Sys2Proof.Config.modulus]
  exact Nat.cast_eq_one

/-- What the search of R104 must find for a residue: an inverse, or nothing where there is none. -/
def goodInverse (r : Nat) : Option Int → Bool
  | some x => decide (1 ≤ x ∧ x ≤ 25 ∧ (r : Int) * x % 26 = 1 ∧ Nat.gcd r 26 = 1)
  | none => decide (Nat.gcd r 26 ≠ 1)

/-- The search of R104 on each of the 26 residues: what it finds and when it finds nothing. -/
theorem inverse_search (r : Nat) (h : r < 26) :
    goodInverse r (inverseCandidates.find? fun x => trem ((r : Int) * x) 26 == 1) = true := by
  have key : ∀ q : Fin 26,
      goodInverse q.val (inverseCandidates.find? fun x => trem ((q.val : Int) * x) 26 == 1) = true := by decide
  exact key ⟨r, h⟩

theorem minv26_some {a x : Int} (h : minv26 a = some x) : 1 ≤ x ∧ x ≤ 25 ∧ a * x % 26 = 1 := by
  have hb := cmod26_bounds a
  have hs := inverse_search (cmod26 a).toNat (by omega)
  rw [Int.toNat_of_nonneg hb.1] at hs
  unfold minv26 at h
  simp only [Sys2Proof.Config.modulus] at h
  rw [h] at hs
  simp only [goodInverse, decide_eq_true_eq] at hs
  refine ⟨hs.1, hs.2.1, ?_⟩
  have h2 := hs.2.2.1
  rw [Int.toNat_of_nonneg hb.1, cmod26_eq_emod, Int.mul_emod, Int.emod_emod, ← Int.mul_emod] at h2
  exact h2

theorem minv26_isSome_iff (a : Int) : (minv26 a).isSome = true ↔ Int.gcd (a % 26) 26 = 1 := by
  have hb := cmod26_bounds a
  have hs := inverse_search (cmod26 a).toNat (by omega)
  have hg : Int.gcd (a % 26) 26 = Nat.gcd (cmod26 a).toNat 26 := by
    rw [← cmod26_eq_emod]
    conv_lhs => rw [← Int.toNat_of_nonneg hb.1]
    rfl
  rw [hg]
  rw [Int.toNat_of_nonneg hb.1] at hs
  unfold minv26
  simp only [Sys2Proof.Config.modulus]
  generalize hf : inverseCandidates.find? (fun x => trem (cmod26 a * x) 26 == 1) = o at hs
  cases o with
  | none => simpa [goodInverse] using hs
  | some x =>
    simp only [goodInverse, decide_eq_true_eq] at hs
    simpa using hs.2.2.2

theorem minv26_cmod26 (a : Int) : minv26 (cmod26 a) = minv26 a := by
  simp [minv26]

/-- The inverter finds an inverse exactly when the gate admits the key (R161). -/
theorem invert_isSome_iff (k : Mat2) : (invert k).isSome = true ↔ isInvertible k = true := by
  rw [isInvertible_iff, ← minv26_isSome_iff, ← minv26_cmod26]
  unfold invert
  split <;> simp_all

/-- What the inverter answers (R160). -/
theorem invert_some {k n : Mat2} (h : invert k = some n) :
    ∃ x, minv26 (cmod26 (det k)) = some x ∧ n = scale26 x (reduce26 (adjugate k)) := by
  unfold invert at h
  split at h
  · cases h
  · rename_i x hx
    exact ⟨x, hx, by injection h with h; exact h.symm⟩

/-- A residue in a 5-bit register reads back as itself. -/
theorem digitValue_residue5 {v : Int} (h : 0 ≤ v) (h' : v ≤ 25) : digitValue (residue5 v) = v := by
  simp only [digitValue, residue5, BitVec.toNat_ofNat]
  omega

theorem digitValue_bounds (d : Digit) : 0 ≤ digitValue d ∧ digitValue d ≤ 31 := by
  have := d.isLt
  simp only [digitValue]
  omega

/-- A field that holds a non-negative integer. -/
theorem zext32_eq_ofInt {v : Int} (h : 0 ≤ v) : zext32 v = BitVec.ofInt 32 v := by
  obtain ⟨n, rfl⟩ := Int.eq_ofNat_of_zero_le h
  simp [zext32]

theorem zext8_eq_ofInt {v : Int} (h : 0 ≤ v) : zext8 v = BitVec.ofInt 8 v := by
  obtain ⟨n, rfl⟩ := Int.eq_ofNat_of_zero_le h
  simp [zext8]

theorem residue5_eq_ofInt {v : Int} (h : 0 ≤ v) : residue5 v = BitVec.ofInt 5 v := by
  obtain ⟨n, rfl⟩ := Int.eq_ofNat_of_zero_le h
  simp [residue5]

/-- The exact determinant fits the field that carries it (`42_key_validator.md` R143). -/
theorem tc32_toInt {v : Int} (h : -2 ^ 31 ≤ v) (h' : v < 2 ^ 31) : (tc32 v).toInt = v := by
  rw [tc32, BitVec.toInt_eq_toNat_cond, BitVec.toNat_ofNat]
  split <;> split <;> omega

end Sys2Proof.Machine
end

