-- ==== Sys2Proof/Laws/Decode.lean ====
section
/-! SUPPORT. The fields of a packed command word, and what each operand form answers. -/

namespace Sys2Proof

@[simp] theorem opField_pack (op : BitVec 8) (a b : BitVec 16) : opField (packFields op a b) = op := by
  ext i hi
  simp only [opField, packFields, BitVec.getElem_extractLsb', BitVec.getLsbD_append]
  rw [if_neg (by omega), if_neg (by omega), BitVec.getLsbD_eq_getElem (by omega)]
  congr 1
  omega

@[simp] theorem aField_pack (op : BitVec 8) (a b : BitVec 16) : aField (packFields op a b) = a := by
  ext i hi
  simp only [aField, packFields, BitVec.getElem_extractLsb', BitVec.getLsbD_append]
  rw [if_neg (by omega), if_pos (by omega), BitVec.getLsbD_eq_getElem (by omega)]
  congr 1
  omega

@[simp] theorem bField_pack (op : BitVec 8) (a b : BitVec 16) : bField (packFields op a b) = b := by
  ext i hi
  simp only [bField, packFields, BitVec.getElem_extractLsb', BitVec.getLsbD_append]
  rw [if_pos (by omega), BitVec.getLsbD_eq_getElem (by omega)]
  congr 1
  omega

@[simp] theorem fieldsOf_pack (op : BitVec 8) (a b : BitVec 16) :
    fieldsOf (packFields op a b) = { op := op, a := a, b := b } := by
  simp [fieldsOf]

/-- A word is its three fields. -/
theorem packFields_fields (w : CmdWord) : packFields (opField w) (aField w) (bField w) = w := by
  ext i hi
  rw [← BitVec.getLsbD_eq_getElem, ← BitVec.getLsbD_eq_getElem]
  simp only [opField, aField, bField, packFields, BitVec.getLsbD_append, BitVec.getLsbD_extractLsb']
  by_cases h1 : i < 16
  · simp [h1]
  · by_cases h2 : i - 16 < 16
    · simp [h1, h2, show 16 + (i - 16) = i by omega]
    · simp [h1, h2, show 32 + (i - 16 - 16) = i by omega, show i - 16 - 16 < 8 by omega]

/-- The high and the low part of a zero-extended `u5` operand. -/
@[simp] theorem u5_high (d : Digit) : (d.setWidth 16).extractLsb' 5 11 = 0#11 := by
  ext i hi
  simp

@[simp] theorem u5_low (d : Digit) : (d.setWidth 16).extractLsb' 0 5 = d := by
  ext i hi
  simp [show i < 16 by omega, BitVec.getLsbD_eq_getElem hi]

/-- The high and the low part of a zero-extended `u8` operand. -/
@[simp] theorem u8_high (c : Char8) : (c.setWidth 16).extractLsb' 8 8 = 0#8 := by
  ext i hi
  simp

@[simp] theorem u8_low (c : Char8) : (c.setWidth 16).extractLsb' 0 8 = c := by
  ext i hi
  simp [show i < 16 by omega, BitVec.getLsbD_eq_getElem hi]

/-- A field whose high part is zero is its low part zero-extended. -/
theorem u5_of_high {b : BitVec 16} (h : b.extractLsb' 5 11 = 0#11) : (b.extractLsb' 0 5).setWidth 16 = b := by
  ext i hi
  have hb := congrArg (fun v : BitVec 11 => v.getLsbD (i - 5)) h
  simp at hb ⊢
  by_cases h5 : i < 5
  · simp [h5, BitVec.getLsbD_eq_getElem hi]
  · simp only [h5]
    have := hb (by omega)
    rw [show 5 + (i - 5) = i by omega, BitVec.getLsbD_eq_getElem hi] at this
    simp [this]

theorem u8_of_high {b : BitVec 16} (h : b.extractLsb' 8 8 = 0#8) : (b.extractLsb' 0 8).setWidth 16 = b := by
  ext i hi
  have hb := congrArg (fun v : BitVec 8 => v.getLsbD (i - 8)) h
  simp at hb ⊢
  by_cases h5 : i < 8
  · simp [h5, BitVec.getLsbD_eq_getElem hi]
  · simp only [h5]
    have := hb (by omega)
    rw [show 8 + (i - 8) = i by omega, BitVec.getLsbD_eq_getElem hi] at this
    simp [this]

/-! ### What an operand form answers -/

theorem formS16_ok {f : CmdFields} {k : KeyWord → Instr} {i : Instr} (h : formS16 f k = .ok i) :
    f.a = 0#16 ∧ i = k f.b := by
  unfold formS16 at h
  split at h
  · exact ⟨‹_›, by injection h with h; exact h.symm⟩
  · cases h

theorem formS16Pair_ok {f : CmdFields} {k : KeyWord → KeyWord → Instr} {i : Instr} (h : formS16Pair f k = .ok i) :
    i = k f.a f.b := by
  injection h with h
  exact h.symm

theorem formU5_ok {f : CmdFields} {k : Digit → Instr} {i : Instr} (h : formU5 f k = .ok i) :
    f.a = 0#16 ∧ f.b.extractLsb' 5 11 = 0#11 ∧ i = k (f.b.extractLsb' 0 5) := by
  unfold formU5 at h
  split at h
  · rename_i hz
    exact ⟨hz.1, hz.2, by injection h with h; exact h.symm⟩
  · cases h

theorem formU8_ok {f : CmdFields} {k : Char8 → Instr} {i : Instr} (h : formU8 f k = .ok i) :
    f.a = 0#16 ∧ f.b.extractLsb' 8 8 = 0#8 ∧ i = k (f.b.extractLsb' 0 8) := by
  unfold formU8 at h
  split at h
  · rename_i hz
    exact ⟨hz.1, hz.2, by injection h with h; exact h.symm⟩
  · cases h

theorem formNone_ok {f : CmdFields} {k i : Instr} (h : formNone f k = .ok i) : f.a = 0#16 ∧ f.b = 0#16 ∧ i = k := by
  unfold formNone at h
  split at h
  · rename_i hz
    exact ⟨hz.1, hz.2, by injection h with h; exact h.symm⟩
  · cases h

end Sys2Proof
end

