-- ==== Sys2Proof/Laws/State.lean ====
section
/-! SUPPORT. One lemma per field per update: what each named update of the engine and of the machine leaves in each
field. Later proofs rewrite with these and unfold no record update. -/

namespace Sys2Proof.Machine

/-! ### The registers of the engine -/

@[simp] theorem invalidateKey_k11 (e : Engine) : (invalidateKey e).k11 = 0 := rfl
@[simp] theorem invalidateKey_k12 (e : Engine) : (invalidateKey e).k12 = 0 := rfl
@[simp] theorem invalidateKey_k21 (e : Engine) : (invalidateKey e).k21 = 0 := rfl
@[simp] theorem invalidateKey_k22 (e : Engine) : (invalidateKey e).k22 = 0 := rfl
@[simp] theorem invalidateKey_kv (e : Engine) : (invalidateKey e).kv = 0 := rfl
@[simp] theorem invalidateKey_fsm (e : Engine) : (invalidateKey e).fsm = e.fsm := rfl
@[simp] theorem invalidateKey_mode (e : Engine) : (invalidateKey e).mode = e.mode := rfl
@[simp] theorem invalidateKey_m11 (e : Engine) : (invalidateKey e).m11 = e.m11 := rfl
@[simp] theorem invalidateKey_m12 (e : Engine) : (invalidateKey e).m12 = e.m12 := rfl
@[simp] theorem invalidateKey_m21 (e : Engine) : (invalidateKey e).m21 = e.m21 := rfl
@[simp] theorem invalidateKey_m22 (e : Engine) : (invalidateKey e).m22 = e.m22 := rfl
@[simp] theorem invalidateKey_first (e : Engine) : (invalidateKey e).first = e.first := rfl
@[simp] theorem invalidateKey_half (e : Engine) : (invalidateKey e).half = e.half := rfl
@[simp] theorem invalidateKey_anychar (e : Engine) : (invalidateKey e).anychar = e.anychar := rfl

@[simp] theorem clearSession_k11 (e : Engine) : (clearSession e).k11 = e.k11 := rfl
@[simp] theorem clearSession_k12 (e : Engine) : (clearSession e).k12 = e.k12 := rfl
@[simp] theorem clearSession_k21 (e : Engine) : (clearSession e).k21 = e.k21 := rfl
@[simp] theorem clearSession_k22 (e : Engine) : (clearSession e).k22 = e.k22 := rfl
@[simp] theorem clearSession_kv (e : Engine) : (clearSession e).kv = e.kv := rfl
@[simp] theorem clearSession_fsm (e : Engine) : (clearSession e).fsm = e.fsm := rfl
@[simp] theorem clearSession_mode (e : Engine) : (clearSession e).mode = .enc := rfl
@[simp] theorem clearSession_m11 (e : Engine) : (clearSession e).m11 = 0 := rfl
@[simp] theorem clearSession_m12 (e : Engine) : (clearSession e).m12 = 0 := rfl
@[simp] theorem clearSession_m21 (e : Engine) : (clearSession e).m21 = 0 := rfl
@[simp] theorem clearSession_m22 (e : Engine) : (clearSession e).m22 = 0 := rfl
@[simp] theorem clearSession_first (e : Engine) : (clearSession e).first = 0 := rfl
@[simp] theorem clearSession_half (e : Engine) : (clearSession e).half = false := rfl
@[simp] theorem clearSession_anychar (e : Engine) : (clearSession e).anychar = false := rfl

@[simp] theorem enterFault_k11 (e : Engine) : (enterFault e).k11 = 0 := rfl
@[simp] theorem enterFault_k12 (e : Engine) : (enterFault e).k12 = 0 := rfl
@[simp] theorem enterFault_k21 (e : Engine) : (enterFault e).k21 = 0 := rfl
@[simp] theorem enterFault_k22 (e : Engine) : (enterFault e).k22 = 0 := rfl
@[simp] theorem enterFault_kv (e : Engine) : (enterFault e).kv = 0 := rfl
@[simp] theorem enterFault_fsm (e : Engine) : (enterFault e).fsm = .fault := rfl
@[simp] theorem enterFault_mode (e : Engine) : (enterFault e).mode = .enc := rfl
@[simp] theorem enterFault_m11 (e : Engine) : (enterFault e).m11 = 0 := rfl
@[simp] theorem enterFault_m12 (e : Engine) : (enterFault e).m12 = 0 := rfl
@[simp] theorem enterFault_m21 (e : Engine) : (enterFault e).m21 = 0 := rfl
@[simp] theorem enterFault_m22 (e : Engine) : (enterFault e).m22 = 0 := rfl
@[simp] theorem enterFault_first (e : Engine) : (enterFault e).first = 0 := rfl
@[simp] theorem enterFault_half (e : Engine) : (enterFault e).half = false := rfl
@[simp] theorem enterFault_anychar (e : Engine) : (enterFault e).anychar = false := rfl

@[simp] theorem loadMatrix_k11 (m : Mat2) (e : Engine) : (loadMatrix m e).k11 = e.k11 := rfl
@[simp] theorem loadMatrix_k12 (m : Mat2) (e : Engine) : (loadMatrix m e).k12 = e.k12 := rfl
@[simp] theorem loadMatrix_k21 (m : Mat2) (e : Engine) : (loadMatrix m e).k21 = e.k21 := rfl
@[simp] theorem loadMatrix_k22 (m : Mat2) (e : Engine) : (loadMatrix m e).k22 = e.k22 := rfl
@[simp] theorem loadMatrix_kv (m : Mat2) (e : Engine) : (loadMatrix m e).kv = e.kv := rfl
@[simp] theorem loadMatrix_fsm (m : Mat2) (e : Engine) : (loadMatrix m e).fsm = e.fsm := rfl
@[simp] theorem loadMatrix_mode (m : Mat2) (e : Engine) : (loadMatrix m e).mode = e.mode := rfl
@[simp] theorem loadMatrix_m11 (m : Mat2) (e : Engine) : (loadMatrix m e).m11 = residue5 m.a := rfl
@[simp] theorem loadMatrix_m12 (m : Mat2) (e : Engine) : (loadMatrix m e).m12 = residue5 m.b := rfl
@[simp] theorem loadMatrix_m21 (m : Mat2) (e : Engine) : (loadMatrix m e).m21 = residue5 m.c := rfl
@[simp] theorem loadMatrix_m22 (m : Mat2) (e : Engine) : (loadMatrix m e).m22 = residue5 m.d := rfl
@[simp] theorem loadMatrix_first (m : Mat2) (e : Engine) : (loadMatrix m e).first = e.first := rfl
@[simp] theorem loadMatrix_half (m : Mat2) (e : Engine) : (loadMatrix m e).half = e.half := rfl
@[simp] theorem loadMatrix_anychar (m : Mat2) (e : Engine) : (loadMatrix m e).anychar = e.anychar := rfl

@[simp] theorem openSession_k11 (x : Mode) (e : Engine) : (openSession x e).k11 = e.k11 := rfl
@[simp] theorem openSession_k12 (x : Mode) (e : Engine) : (openSession x e).k12 = e.k12 := rfl
@[simp] theorem openSession_k21 (x : Mode) (e : Engine) : (openSession x e).k21 = e.k21 := rfl
@[simp] theorem openSession_k22 (x : Mode) (e : Engine) : (openSession x e).k22 = e.k22 := rfl
@[simp] theorem openSession_kv (x : Mode) (e : Engine) : (openSession x e).kv = e.kv := rfl
@[simp] theorem openSession_fsm (x : Mode) (e : Engine) : (openSession x e).fsm = .run := rfl
@[simp] theorem openSession_mode (x : Mode) (e : Engine) : (openSession x e).mode = x := rfl
@[simp] theorem openSession_m11 (x : Mode) (e : Engine) : (openSession x e).m11 = e.m11 := rfl
@[simp] theorem openSession_m12 (x : Mode) (e : Engine) : (openSession x e).m12 = e.m12 := rfl
@[simp] theorem openSession_m21 (x : Mode) (e : Engine) : (openSession x e).m21 = e.m21 := rfl
@[simp] theorem openSession_m22 (x : Mode) (e : Engine) : (openSession x e).m22 = e.m22 := rfl
@[simp] theorem openSession_first (x : Mode) (e : Engine) : (openSession x e).first = 0 := rfl
@[simp] theorem openSession_half (x : Mode) (e : Engine) : (openSession x e).half = false := rfl
@[simp] theorem openSession_anychar (x : Mode) (e : Engine) : (openSession x e).anychar = false := rfl

@[simp] theorem endCall_k11 (e : Engine) : (endCall e).k11 = if e.mode = .prv then e.k11 else 0 := by
  cases h : e.mode <;> simp [endCall, h]
@[simp] theorem endCall_k12 (e : Engine) : (endCall e).k12 = if e.mode = .prv then e.k12 else 0 := by
  cases h : e.mode <;> simp [endCall, h]
@[simp] theorem endCall_k21 (e : Engine) : (endCall e).k21 = if e.mode = .prv then e.k21 else 0 := by
  cases h : e.mode <;> simp [endCall, h]
@[simp] theorem endCall_k22 (e : Engine) : (endCall e).k22 = if e.mode = .prv then e.k22 else 0 := by
  cases h : e.mode <;> simp [endCall, h]
@[simp] theorem endCall_kv (e : Engine) : (endCall e).kv = if e.mode = .prv then e.kv else 0 := by
  cases h : e.mode <;> simp [endCall, h]
@[simp] theorem endCall_fsm (e : Engine) : (endCall e).fsm = .idle := rfl
@[simp] theorem endCall_mode (e : Engine) : (endCall e).mode = .enc := rfl
@[simp] theorem endCall_m11 (e : Engine) : (endCall e).m11 = 0 := rfl
@[simp] theorem endCall_m12 (e : Engine) : (endCall e).m12 = 0 := rfl
@[simp] theorem endCall_m21 (e : Engine) : (endCall e).m21 = 0 := rfl
@[simp] theorem endCall_m22 (e : Engine) : (endCall e).m22 = 0 := rfl
@[simp] theorem endCall_first (e : Engine) : (endCall e).first = 0 := rfl
@[simp] theorem endCall_half (e : Engine) : (endCall e).half = false := rfl
@[simp] theorem endCall_anychar (e : Engine) : (endCall e).anychar = false := rfl

@[simp] theorem engineReset_k11 : Engine.reset.k11 = 0 := rfl
@[simp] theorem engineReset_k12 : Engine.reset.k12 = 0 := rfl
@[simp] theorem engineReset_k21 : Engine.reset.k21 = 0 := rfl
@[simp] theorem engineReset_k22 : Engine.reset.k22 = 0 := rfl
@[simp] theorem engineReset_kv : Engine.reset.kv = 0 := rfl
@[simp] theorem engineReset_fsm : Engine.reset.fsm = .idle := rfl
@[simp] theorem engineReset_mode : Engine.reset.mode = .enc := rfl
@[simp] theorem engineReset_m11 : Engine.reset.m11 = 0 := rfl
@[simp] theorem engineReset_m12 : Engine.reset.m12 = 0 := rfl
@[simp] theorem engineReset_m21 : Engine.reset.m21 = 0 := rfl
@[simp] theorem engineReset_m22 : Engine.reset.m22 = 0 := rfl
@[simp] theorem engineReset_first : Engine.reset.first = 0 := rfl
@[simp] theorem engineReset_half : Engine.reset.half = false := rfl
@[simp] theorem engineReset_anychar : Engine.reset.anychar = false := rfl

/-! ### The machine -/

@[simp] theorem takeResponse_engine (s : State) : (takeResponse s).engine = s.engine := rfl
@[simp] theorem takeResponse_rsp (s : State) : (takeResponse s).rsp = none := rfl
@[simp] theorem takeResponse_host (s : State) : (takeResponse s).host = s.host := rfl

@[simp] theorem applyReset_engine (s : State) : (applyReset s).engine = Engine.reset := rfl
@[simp] theorem applyReset_rsp (s : State) : (applyReset s).rsp = none := rfl
@[simp] theorem applyReset_host (s : State) : (applyReset s).host = s.host := rfl

@[simp] theorem presentNext_engine (w : CmdWord) (s : State) : (presentNext w s).engine = s.engine := rfl
@[simp] theorem presentNext_rsp (w : CmdWord) (s : State) : (presentNext w s).rsp = none := rfl
@[simp] theorem presentNext_host (w : CmdWord) (s : State) : (presentNext w s).host = .command w :: s.host := rfl

@[simp] theorem stateReset_engine : (State.reset).engine = Engine.reset := rfl
@[simp] theorem stateReset_rsp : (State.reset).rsp = none := rfl
@[simp] theorem stateReset_host : (State.reset).host = [] := rfl

/-! ### The two parts of a reply -/

@[simp] theorem raise_engine (e : Engine) (st : Status) : (raise e st).engine = e := rfl
@[simp] theorem raise_word (e : Engine) (st : Status) : (raise e st).word = respond st 0 0 := rfl
@[simp] theorem answerOk_engine (e : Engine) (d : BitVec 32) : (answerOk e d).engine = e := rfl
@[simp] theorem answerOk_word (e : Engine) (d : BitVec 32) : (answerOk e d).word = respond .ok 0 d := rfl
@[simp] theorem nonInvertible_engine (e : Engine) : (nonInvertible e).engine = invalidateKey e := rfl
@[simp] theorem takeInconsistency_engine (e : Engine) : (takeInconsistency e).engine = enterFault e := rfl
@[simp] theorem takeInconsistency_word (e : Engine) :
    (takeInconsistency e).word = respond .internalInconsistency 0 0 := rfl

end Sys2Proof.Machine
end

