-- ==== Sys2Proof/Laws/Ops.lean ====
section
/-! SUPPORT. What each shared operation can do, said once: the fields of a response, the tests before a command's own
rule, the checks on the key, the encoder, the emitted pair, an accepted word, a move of the host. Later proofs cite
these instead of unfolding the operation. -/

namespace Sys2Proof.Machine

/-! ### The fields of a response (`30_encoding.md` R75) -/

@[simp] theorem rspSt_respond (st : Status) (aux : BitVec 8) (data : BitVec 32) :
    rspSt (respond st aux data) = statusCode st := by
  ext i hi
  simp only [rspSt, respond, BitVec.getElem_extractLsb', BitVec.getLsbD_append]
  rw [if_neg (by omega), if_neg (by omega), BitVec.getLsbD_eq_getElem (by omega)]
  congr 1
  omega

@[simp] theorem rspAux_respond (st : Status) (aux : BitVec 8) (data : BitVec 32) :
    rspAux (respond st aux data) = aux := by
  ext i hi
  simp only [rspAux, respond, BitVec.getElem_extractLsb', BitVec.getLsbD_append]
  rw [if_neg (by omega), if_pos (by omega), BitVec.getLsbD_eq_getElem (by omega)]
  congr 1
  omega

@[simp] theorem rspData_respond (st : Status) (aux : BitVec 8) (data : BitVec 32) :
    rspData (respond st aux data) = data := by
  ext i hi
  simp only [rspData, respond, BitVec.getElem_extractLsb', BitVec.getLsbD_append]
  rw [if_pos (by omega), BitVec.getLsbD_eq_getElem (by omega)]
  congr 1
  omega

@[simp] theorem outV_respond (st : Status) (aux : BitVec 8) (data : BitVec 32) :
    outV (respond st aux data) = aux.getLsbD 0 := by
  simp only [outV, respond, BitVec.getLsbD_append]
  rw [if_neg (by omega), if_pos (by omega)]

@[simp] theorem out1_pairResponse (w1 w2 : Char8) : out1 (pairResponse w1 w2) = w1 := by
  ext i hi
  simp only [out1, pairResponse, respond, BitVec.getElem_extractLsb', BitVec.getLsbD_append]
  rw [if_pos (by omega), if_neg (by omega), if_pos (by omega), BitVec.getLsbD_eq_getElem (by omega)]
  congr 1
  omega

@[simp] theorem out2_pairResponse (w1 w2 : Char8) : out2 (pairResponse w1 w2) = w2 := by
  ext i hi
  simp only [out2, pairResponse, respond, BitVec.getElem_extractLsb', BitVec.getLsbD_append]
  rw [if_pos (by omega), if_pos (by omega), BitVec.getLsbD_eq_getElem (by omega)]
  congr 1
  omega

@[simp] theorem rspSt_pairResponse (w1 w2 : Char8) : rspSt (pairResponse w1 w2) = statusCode .ok := by
  simp [pairResponse]

@[simp] theorem outV_pairResponse (w1 w2 : Char8) : outV (pairResponse w1 w2) = true := by
  simp [pairResponse]

/-- Different statuses have different codes (R76). -/
theorem statusCode_injective {x y : Status} (h : statusCode x = statusCode y) : x = y := by
  cases x <;> cases y <;> first | rfl | (revert h; decide)

/-! ### Delivering a reply -/

theorem deliver_eq (s : State) (r : Reply) :
    deliver s r = .next { engine := r.engine, rsp := some r.word, host := s.host } := rfl

/-- A delivered reply is a next state and nothing else. -/
theorem deliver_next {s t : State} {r : Reply} (h : deliver s r = .next t) :
    t.engine = r.engine ∧ t.rsp = some r.word ∧ t.host = s.host := by
  injection h with h
  subst h
  exact ⟨rfl, rfl, rfl⟩

/-! ### The tests on `FSM` (R88, R183) -/

theorem whenIdle_idle {e : Engine} (h : e.fsm = .idle) (r : Reply) : whenIdle e r = r := by simp [whenIdle, h]

theorem whenIdle_run {e : Engine} (h : e.fsm = .run) (r : Reply) : whenIdle e r = badState e := by simp [whenIdle, h]

theorem whenIdle_fault {e : Engine} (h : e.fsm = .fault) (r : Reply) : whenIdle e r = stickyFault e := by
  simp [whenIdle, h]

theorem whenRun_idle {e : Engine} (h : e.fsm = .idle) (r : Reply) : whenRun e r = badState e := by simp [whenRun, h]

theorem whenRun_run {e : Engine} (h : e.fsm = .run) (r : Reply) : whenRun e r = r := by simp [whenRun, h]

theorem whenRun_fault {e : Engine} (h : e.fsm = .fault) (r : Reply) : whenRun e r = stickyFault e := by
  simp [whenRun, h]

/-- A command legal in `IDLE` either runs its own rule there or leaves the engine alone. -/
theorem whenIdle_cases (e : Engine) (r : Reply) :
    (e.fsm = .idle ∧ whenIdle e r = r) ∨ (e.fsm = .run ∧ whenIdle e r = badState e) ∨
      (e.fsm = .fault ∧ whenIdle e r = stickyFault e) := by
  cases h : e.fsm <;> simp [whenIdle, h]

/-- A command legal in `RUN` either runs its own rule there or leaves the engine alone. -/
theorem whenRun_cases (e : Engine) (r : Reply) :
    (e.fsm = .run ∧ whenRun e r = r) ∨ (e.fsm = .idle ∧ whenRun e r = badState e) ∨
      (e.fsm = .fault ∧ whenRun e r = stickyFault e) := by
  cases h : e.fsm <;> simp [whenRun, h]

@[simp] theorem badState_engine (e : Engine) : (badState e).engine = e := rfl
@[simp] theorem badState_word (e : Engine) : (badState e).word = respond .badState 0 0 := rfl
@[simp] theorem stickyFault_engine (e : Engine) : (stickyFault e).engine = e := rfl
@[simp] theorem stickyFault_word (e : Engine) : (stickyFault e).word = respond .internalInconsistency 0 0 := rfl

/-! ### The checks on the key (R146, R147) -/

theorem keyPresent_iff (e : Engine) : keyPresent e = true ↔ e.kv = 0b1111#4 := by simp [keyPresent]

theorem withKey_cases (e : Engine) (r : Reply) :
    (e.kv = 0b1111#4 ∧ withKey e r = r) ∨ (e.kv ≠ 0b1111#4 ∧ withKey e r = raise e .missingKey) := by
  by_cases h : e.kv = 0b1111#4 <;> simp [withKey, keyPresent, h]

theorem withGate_cases (e : Engine) (r : Reply) :
    (e.kv = 0b1111#4 ∧ isInvertible (keyMatrix e) = true ∧ withGate e r = r) ∨
      (e.kv = 0b1111#4 ∧ isInvertible (keyMatrix e) = false ∧ withGate e r = nonInvertible e) ∨
      (e.kv ≠ 0b1111#4 ∧ withGate e r = raise (invalidateKey e) .missingKey) := by
  by_cases h : e.kv = 0b1111#4
  · cases hi : isInvertible (keyMatrix e) <;> simp [withGate, keyPresent, h, hi]
  · simp [withGate, keyPresent, h]

/-- An entry of the inverse, `MISSING_KEY`, or entry to `FAULT` (`43_matrix_inverter.md` section 2). -/
theorem invEntry_cases (f : Mat2 → Int) (e : Engine) :
    (∃ n, e.kv = 0b1111#4 ∧ invert (keyMatrix e) = some n ∧ invEntry f e = answerOk e (zext32 (f n))) ∨
      (e.kv = 0b1111#4 ∧ invert (keyMatrix e) = none ∧ invEntry f e = takeInconsistency e) ∨
      (e.kv ≠ 0b1111#4 ∧ invEntry f e = raise e .missingKey) := by
  by_cases h : e.kv = 0b1111#4
  · cases hi : invert (keyMatrix e) <;> simp [invEntry, withKey, keyPresent, h, hi]
  · simp [invEntry, withKey, keyPresent, h]

/-! ### The encoder and the emitted pair (R122, R123, R182) -/

/-- What one character does to the encoder. -/
theorem encodeStep_cases (ch : Char8) (e : Engine) :
    (isLetter ch = false ∧ encodeStep ch e = (e, none)) ∨
      (isLetter ch = true ∧ e.half = false ∧
        encodeStep ch e = ({ e with first := digitOf ch, half := true }, none)) ∨
      (isLetter ch = true ∧ e.half = true ∧
        encodeStep ch e = ({ e with first := 0, half := false }, some (e.first, digitOf ch))) := by
  cases h : isLetter ch <;> cases h' : e.half <;> simp [encodeStep, h, h']

/-- What the end of the text does to the encoder. -/
theorem encodeFinish_cases (e : Engine) :
    (e.half = false ∧ encodeFinish e = (e, none)) ∨
      (e.half = true ∧
        encodeFinish e = ({ e with first := 0, half := false }, some (e.first, Sys2Proof.Config.padDigit))) := by
  cases h : e.half <;> simp [encodeFinish, h]

theorem emit_prv {e : Engine} (h : e.mode = .prv) (p : DigitPair) :
    emit e p = pairResponse (p.1.setWidth 8) (p.2.setWidth 8) := by simp [emit, h]

theorem emit_cipher {e : Engine} (h : e.mode ≠ .prv) (p : DigitPair) :
    emit e p = pairResponse (letterOf (residue5 (transform (workMatrix e) (pairVector p)).1))
      (letterOf (residue5 (transform (workMatrix e) (pairVector p)).2)) := by
  unfold emit
  split
  · rename_i hm
    exact absurd hm h
  · rfl
  · rfl

/-- `digitOf` of a letter: its place after `A` or after `a` (`41_codec.md` R121). -/
theorem digitOf_toNat {ch : Char8} (h : isLetter ch = true) :
    (digitOf ch).toNat = if 0x61 ≤ ch.toNat then ch.toNat - 0x61 else ch.toNat - 0x41 := by
  have hlt := ch.isLt
  simp only [isLetter, Bool.or_eq_true, Bool.and_eq_true, decide_eq_true_eq] at h
  unfold digitOf upcase
  split <;> simp [BitVec.toNat_sub] <;> omega

/-- `digitOf` of a letter is a digit 0 … 25 (R121). -/
theorem digitOf_le {ch : Char8} (h : isLetter ch = true) : (digitOf ch).toNat ≤ 25 := by
  rw [digitOf_toNat h]
  simp only [isLetter, Bool.or_eq_true, Bool.and_eq_true, decide_eq_true_eq] at h
  split <;> omega

/-! ### The pair transform (R176) -/

theorem transform_bounds (m : Mat2) (v : Int × Int) :
    (0 ≤ (transform m v).1 ∧ (transform m v).1 ≤ 25) ∧ (0 ≤ (transform m v).2 ∧ (transform m v).2 ≤ 25) :=
  ⟨cmod26_bounds _, cmod26_bounds _⟩

/-! ### Accepted words and the moves of the host -/

theorem accept_ok {w : CmdWord} {i : Instr} (h : decode w = .ok i) (s : State) : accept w s = exec i s := by
  simp [accept, h]

theorem accept_error {w : CmdWord} {x : DecodeReject} (h : decode w = .error x) (s : State) :
    accept w s = deliver s (raise s.engine .illegalCommand) := by
  simp [accept, h]

theorem offerCommand_cases (w : CmdWord) (s : State) :
    (s.rsp = none ∧ offerCommand w s = accept w s) ∨ (s.rsp ≠ none ∧ offerCommand w s = .next s) := by
  cases h : s.rsp <;> simp [offerCommand, cmdReady, rspValid, h]

/-- What a step can do: nothing, or the host's next move. -/
theorem step_cases (s : State) :
    (s.host = [] ∧ step s = .next s) ∨
      ∃ m rest, s.host = m :: rest ∧ step s = hostMove m { s with host := rest } := by
  cases h : s.host <;> simp [step, h]

end Sys2Proof.Machine
end

