-- ==== Sys2Proof/Laws/Exec.lean ====
section
/-! SUPPORT. Every command as a reply: what it does depends on the engine alone, and it always answers a next state.
Later proofs rewrite `exec` with `exec_eq_deliver` and the reply of the one command at hand. -/

namespace Sys2Proof.Machine

/-- The reply of a command: the engine after it and its response (`00_scope.md` R7). -/
def replyOf (i : Instr) (e : Engine) : Reply :=
  match exec i { engine := e, rsp := none, host := [] } with
  | .next t => { engine := t.engine, word := t.rsp.getD 0 }
  | .fault _ => { engine := e, word := 0 }
  | .refused _ => { engine := e, word := 0 }

/-- A command is its reply, delivered. -/
theorem exec_eq_deliver (i : Instr) (s : State) : exec i s = deliver s (replyOf i s.engine) := by
  cases i <;> rfl

theorem replyOf_rdsr (e : Engine) : replyOf .rdsr e = answerOk e (statusRegister e) := rfl

theorem replyOf_cmod (n : KeyWord) (e : Engine) :
    replyOf (.cmod n) e = whenIdle e (answerOk e (zext32 (cmod26 (sext16 n)))) := rfl

theorem replyOf_gcd (a b : KeyWord) (e : Engine) :
    replyOf (.gcd a b) e = whenIdle e (answerOk e (zext32 (euclidGcd (sext16 a) (sext16 b)))) := rfl

theorem replyOf_minv (a : KeyWord) (e : Engine) :
    replyOf (.minv a) e = whenIdle e (match minv26 (sext16 a) with
      | some x => answerOk e (zext32 x)
      | none => raise e .noInverse) := rfl

theorem replyOf_mulm (a b : KeyWord) (e : Engine) :
    replyOf (.mulm a b) e = whenIdle e (answerOk e (zext32 (mulm26 (sext16 a) (sext16 b)))) := rfl

theorem replyOf_decd (d : Digit) (e : Engine) :
    replyOf (.decd d) e = whenIdle e (answerOk e ((letterOf d).setWidth 32)) := rfl

theorem replyOf_ldk11 (v : KeyWord) (e : Engine) :
    replyOf (.ldk11 v) e = whenIdle e (answerOk { e with k11 := v, kv := setValid .e11 e.kv } 0) := rfl

theorem replyOf_ldk12 (v : KeyWord) (e : Engine) :
    replyOf (.ldk12 v) e = whenIdle e (answerOk { e with k12 := v, kv := setValid .e12 e.kv } 0) := rfl

theorem replyOf_ldk21 (v : KeyWord) (e : Engine) :
    replyOf (.ldk21 v) e = whenIdle e (answerOk { e with k21 := v, kv := setValid .e21 e.kv } 0) := rfl

theorem replyOf_ldk22 (v : KeyWord) (e : Engine) :
    replyOf (.ldk22 v) e = whenIdle e (answerOk { e with k22 := v, kv := setValid .e22 e.kv } 0) := rfl

theorem replyOf_det (e : Engine) :
    replyOf .det e = whenIdle e (withKey e (answerOk e (tc32 (det (keyMatrix e))))) := rfl

theorem replyOf_isinv (e : Engine) :
    replyOf .isinv e = whenIdle e (withKey e (answerOk e (if isInvertible (keyMatrix e) then 1 else 0))) := rfl

theorem replyOf_inv11 (e : Engine) : replyOf .inv11 e = whenIdle e (invEntry Mat2.a e) := rfl
theorem replyOf_inv12 (e : Engine) : replyOf .inv12 e = whenIdle e (invEntry Mat2.b e) := rfl
theorem replyOf_inv21 (e : Engine) : replyOf .inv21 e = whenIdle e (invEntry Mat2.c e) := rfl
theorem replyOf_inv22 (e : Engine) : replyOf .inv22 e = whenIdle e (invEntry Mat2.d e) := rfl

theorem replyOf_stenc (e : Engine) :
    replyOf .stenc e = whenIdle e (withGate e
      (answerOk (openSession .enc (loadMatrix (reduce26 (keyMatrix e)) e)) 0)) := rfl

theorem replyOf_stdec (e : Engine) :
    replyOf .stdec e = whenIdle e (withGate e (match invert (keyMatrix e) with
      | none => takeInconsistency e
      | some n => answerOk (openSession .dec (loadMatrix n e)) 0)) := rfl

theorem replyOf_stprv (e : Engine) : replyOf .stprv e = whenIdle e (answerOk (openSession .prv e) 0) := rfl

theorem replyOf_putc (ch : Char8) (e : Engine) :
    replyOf (.putc ch) e = whenRun e
      { engine := (encodeStep ch { e with anychar := true }).1,
        word := emitPair (encodeStep ch { e with anychar := true }).1 (encodeStep ch { e with anychar := true }).2 } := rfl

theorem replyOf_fin (e : Engine) :
    replyOf .fin e = whenRun e { engine := endCall e, word := finResponse e } := rfl

/-- The gate passed, the inverter always answers (`44_cipher_engine.md` R193): the reply of `STDEC` on an admitted key. -/
theorem invert_of_isInvertible {k : Mat2} (h : isInvertible k = true) : ∃ n, invert k = some n :=
  Option.isSome_iff_exists.mp ((invert_isSome_iff k).mpr h)

theorem invert_of_not_isInvertible {k : Mat2} (h : isInvertible k = false) : invert k = none := by
  cases hi : invert k with
  | none => rfl
  | some n =>
    have := (invert_isSome_iff k).mp (by rw [hi]; rfl)
    rw [h] at this
    cases this

/-- A command legal in `IDLE`, in `IDLE`. -/
theorem exec_of_idle {i : Instr} {s : State} {r : Reply} (hf : s.engine.fsm = .idle)
    (h : replyOf i s.engine = whenIdle s.engine r) :
    exec i s = .next { s with engine := r.engine, rsp := some r.word } := by
  rw [exec_eq_deliver, h, whenIdle_idle hf]
  rfl

/-- A command legal in `RUN`, in `RUN`. -/
theorem exec_of_run {i : Instr} {s : State} {r : Reply} (hf : s.engine.fsm = .run)
    (h : replyOf i s.engine = whenRun s.engine r) :
    exec i s = .next { s with engine := r.engine, rsp := some r.word } := by
  rw [exec_eq_deliver, h, whenRun_run hf]
  rfl

/-- The reply of a word that is presented to a ready engine. -/
def wordReply (w : CmdWord) (e : Engine) : Reply :=
  match decode w with
  | .ok i => replyOf i e
  | .error _ => raise e .illegalCommand

theorem accept_eq_deliver (w : CmdWord) (s : State) : accept w s = deliver s (wordReply w s.engine) := by
  unfold accept wordReply
  cases decode w with
  | ok i => exact exec_eq_deliver i s
  | error x => rfl

end Sys2Proof.Machine
end

