-- ==== Sys2Proof/Laws/Calls.lean ====
section
/-! SUPPORT. Runs of command words, one word at a time (`20_memory.md` R52, R59). -/

namespace Sys2Proof.Machine

/-- One word of a run: its reply, then the run of the rest with the response taken. -/
theorem runWords_cons (w : CmdWord) (ws : List CmdWord) (s : State) :
    runWords (w :: ws) s =
      ((runWords ws { s with engine := (wordReply w s.engine).engine, rsp := none }).1,
        (wordReply w s.engine).word ::
          (runWords ws { s with engine := (wordReply w s.engine).engine, rsp := none }).2) := by
  rw [runWords, accept_eq_deliver]
  rfl

/-- A run of two lists is the run of the second from where the first ends. -/
theorem runWords_append (ws ws' : List CmdWord) (s : State) :
    runWords (ws ++ ws') s =
      ((runWords ws' (runWords ws s).1).1, (runWords ws s).2 ++ (runWords ws' (runWords ws s).1).2) := by
  induction ws generalizing s with
  | nil => rfl
  | cons w ws ih => rw [List.cons_append, runWords_cons, runWords_cons, ih, List.cons_append]

/-- An `ENCRYPT` or `DECRYPT` whose opening answers `OK` is the run of its whole expansion (`30_encoding.md` R86). -/
theorem runCall_of_ok {opening : List CmdWord} {s : State} (t : List Char8)
    (h : (runWords opening s).2.getLast?.map rspSt = some (statusCode .ok)) :
    runCall opening t s = runWords (opening ++ bodyWords t) s := by
  rw [runWords_append, runCall]
  exact if_pos h

/-- An `ENCRYPT` or `DECRYPT` whose opening does not answer `OK` is the run of its opening words (R86). -/
theorem runCall_of_stop {opening : List CmdWord} {s : State} (t : List Char8)
    (h : (runWords opening s).2.getLast?.map rspSt ≠ some (statusCode .ok)) :
    runCall opening t s = runWords opening s := by
  rw [runCall]
  exact if_neg h

/-- `PREVIEW` is the run of its whole expansion (R86). -/
theorem runPseudo_preview (t : List Char8) (s : State) :
    runPseudo (.preview t) s = runWords (encode .stprv :: bodyWords t) s := rfl

/-- A run answers each of its words (`20_memory.md` R52). -/
theorem runWords_length (ws : List CmdWord) (s : State) : (runWords ws s).2.length = ws.length := by
  induction ws generalizing s with
  | nil => rfl
  | cons w ws ih => rw [runWords_cons, List.length_cons, List.length_cons, ih]

/-- The output text, response by response (`30_encoding.md` R80). -/
theorem outputText_cons (r : RspWord) (rs : List RspWord) :
    outputText (r :: rs) =
      (if rspSt r = statusCode .ok ∧ outV r = true then [out1 r, out2 r] else []) ++ outputText rs := rfl

end Sys2Proof.Machine
end

