-- ==== Sys2Proof/Laws/PerInstr.lean ====
section
/-! SUPPORT. Statements about every command, one lemma per constructor. `EncodesToRow`: the encoding of a command is a
word of the row of the opcode map that bears its mnemonic (`30_encoding.md` R71, R72). -/

namespace Sys2Proof.Laws

/-- The encoding of the command is a word of its own row of the opcode map. -/
def EncodesToRow.Statement (i : Instr) : Prop :=
  ∃ r, i.row = some r ∧ r.hits (encode i) = true

/-- A packed word meets a row whose mask covers the opcode when the bits the mask covers in `A` and `B` are zero. -/
theorem hits_pack (op : BitVec 8) (a b am bm : BitVec 16) (nm : String) (ha : a &&& am = 0#16) (hb : b &&& bm = 0#16) :
    (OpRow.ofForm nm op (packFields 0xFF#8 am bm)).hits (packFields op a b) = true := by
  simp only [OpRow.ofForm, OpRow.hits, packFields, beq_iff_eq]
  ext i hi
  rw [← BitVec.getLsbD_eq_getElem, ← BitVec.getLsbD_eq_getElem]
  simp only [BitVec.getLsbD_append, BitVec.getLsbD_and]
  by_cases h1 : i < 16
  · have hbi : (b.getLsbD i && bm.getLsbD i) = false := by rw [← BitVec.getLsbD_and, hb]; simp
    simpa [h1, show i < 32 by omega] using hbi
  · by_cases h2 : i - 16 < 16
    · have hai : (a.getLsbD (i - 16) && am.getLsbD (i - 16)) = false := by rw [← BitVec.getLsbD_and, ha]; simp
      simpa [h1, h2, show i < 32 by omega] using hai
    · have h3 : i - 16 - 16 < 8 := by omega
      have h4 : i - 32 = i - 16 - 16 := by omega
      have h5 : (0xFF#8).getLsbD (i - 16 - 16) = true := by
        generalize i - 16 - 16 = j at h3
        interval_cases j <;> rfl
      simp [h1, h2, show ¬i < 32 by omega, h4, h5]

/-- A zero-extended character has no bit above the low eight. -/
theorem char_high (ch : Char8) : ch.setWidth 16 &&& 0xFF00#16 = 0#16 := by
  ext i hi
  simp only [BitVec.getElem_and, BitVec.getElem_setWidth, BitVec.getElem_zero, Bool.and_eq_false_iff]
  by_cases h : i < 8
  · right
    rw [← BitVec.getLsbD_eq_getElem]
    interval_cases i <;> rfl
  · left
    exact BitVec.getLsbD_of_ge _ _ (by omega)

theorem EncodesToRow.rdsr : EncodesToRow.Statement .rdsr := ⟨_, rfl, by decide⟩

theorem EncodesToRow.cmod (v : KeyWord) : EncodesToRow.Statement (.cmod v) :=
  ⟨_, rfl, hits_pack 0x10#8 0#16 v 0xFFFF#16 0#16 "CMOD" (by simp) (by simp)⟩

theorem EncodesToRow.gcd (a b : KeyWord) : EncodesToRow.Statement (.gcd a b) :=
  ⟨_, rfl, hits_pack 0x11#8 a b 0#16 0#16 "GCD" (by simp) (by simp)⟩

theorem EncodesToRow.minv (v : KeyWord) : EncodesToRow.Statement (.minv v) :=
  ⟨_, rfl, hits_pack 0x12#8 0#16 v 0xFFFF#16 0#16 "MINV" (by simp) (by simp)⟩

theorem EncodesToRow.mulm (a b : KeyWord) : EncodesToRow.Statement (.mulm a b) :=
  ⟨_, rfl, hits_pack 0x13#8 a b 0#16 0#16 "MULM" (by simp) (by simp)⟩

theorem EncodesToRow.decd (d : Digit) : EncodesToRow.Statement (.decd d) :=
  ⟨_, rfl, hits_pack 0x20#8 0#16 (d.setWidth 16) 0xFFFF#16 0xFFE0#16 "DECD" (by simp) (by revert d; decide)⟩

theorem EncodesToRow.ldk11 (v : KeyWord) : EncodesToRow.Statement (.ldk11 v) :=
  ⟨_, rfl, hits_pack 0x30#8 0#16 v 0xFFFF#16 0#16 "LDK11" (by simp) (by simp)⟩

theorem EncodesToRow.ldk12 (v : KeyWord) : EncodesToRow.Statement (.ldk12 v) :=
  ⟨_, rfl, hits_pack 0x31#8 0#16 v 0xFFFF#16 0#16 "LDK12" (by simp) (by simp)⟩

theorem EncodesToRow.ldk21 (v : KeyWord) : EncodesToRow.Statement (.ldk21 v) :=
  ⟨_, rfl, hits_pack 0x32#8 0#16 v 0xFFFF#16 0#16 "LDK21" (by simp) (by simp)⟩

theorem EncodesToRow.ldk22 (v : KeyWord) : EncodesToRow.Statement (.ldk22 v) :=
  ⟨_, rfl, hits_pack 0x33#8 0#16 v 0xFFFF#16 0#16 "LDK22" (by simp) (by simp)⟩

theorem EncodesToRow.det : EncodesToRow.Statement .det := ⟨_, rfl, by decide⟩

theorem EncodesToRow.isinv : EncodesToRow.Statement .isinv := ⟨_, rfl, by decide⟩

theorem EncodesToRow.inv11 : EncodesToRow.Statement .inv11 := ⟨_, rfl, by decide⟩

theorem EncodesToRow.inv12 : EncodesToRow.Statement .inv12 := ⟨_, rfl, by decide⟩

theorem EncodesToRow.inv21 : EncodesToRow.Statement .inv21 := ⟨_, rfl, by decide⟩

theorem EncodesToRow.inv22 : EncodesToRow.Statement .inv22 := ⟨_, rfl, by decide⟩

theorem EncodesToRow.stenc : EncodesToRow.Statement .stenc := ⟨_, rfl, by decide⟩

theorem EncodesToRow.stdec : EncodesToRow.Statement .stdec := ⟨_, rfl, by decide⟩

theorem EncodesToRow.stprv : EncodesToRow.Statement .stprv := ⟨_, rfl, by decide⟩

theorem EncodesToRow.putc (ch : Char8) : EncodesToRow.Statement (.putc ch) :=
  ⟨_, rfl, hits_pack 0x54#8 0#16 (ch.setWidth 16) 0xFFFF#16 0xFF00#16 "PUTC" (by simp) (char_high ch)⟩

theorem EncodesToRow.fin : EncodesToRow.Statement .fin := ⟨_, rfl, by decide⟩

end Sys2Proof.Laws
end

