-- ==== Sys2Proof/Tests/Slice0.lean ====
section
/-! SUPPORT. Tests. Words are written out from the encoding (`30_encoding.md` R70 to R73) and the spec's own vectors
(`95_test_vectors.md`, `96_derived_vectors.md`, and the examples of the command rules); each test names its source. A
`witness` shows a concrete state and operands that meet all the hypotheses of a statement, or of one clause of it. -/

namespace Sys2Proof.Tests

open Sys2Proof.Machine

/-! ### States and what a test looks at -/

/-- An engine in `IDLE` with the key `[[a, b], [c, d]]` loaded. -/
def keyed (a b c d : Int) : State :=
  { State.reset with engine := { Engine.reset with
      k11 := BitVec.ofInt 16 a, k12 := BitVec.ofInt 16 b, k21 := BitVec.ofInt 16 c, k22 := BitVec.ofInt 16 d,
      kv := 0b1111#4 } }

/-- A session with the key `[[3, 3], [2, 5]]` and the working matrix `m`. -/
def session (x : Mode) (m : Digit × Digit × Digit × Digit) (half : Bool) (first : Digit) (anychar : Bool) : State :=
  { keyed 3 3 2 5 with engine := { (keyed 3 3 2 5).engine with
      fsm := .run, mode := x, m11 := m.1, m12 := m.2.1, m21 := m.2.2.1, m22 := m.2.2.2,
      half := half, first := first, anychar := anychar } }

/-- An `ENC` session, the key's own matrix (`S_ENC` of `95_test_vectors.md` and its successors). -/
def encSession (half : Bool) (first : Digit) : State := session .enc (3, 3, 2, 5) half first half

/-- A `DEC` session, the inverse's matrix (`S_DEC`). -/
def decSession (half : Bool) (first : Digit) (anychar : Bool) : State :=
  session .dec (15, 17, 20, 9) half first anychar

/-- A `PRV` session: the working matrix is 0. -/
def prvSession (half : Bool) (first : Digit) : State := session .prv (0, 0, 0, 0) half first half

/-- The engine in `FAULT` (`S_FAULT`). -/
def faulted : State := { State.reset with engine := { Engine.reset with fsm := .fault } }

/-- The state after an outcome. -/
def after (o : Outcome) : State :=
  match o with
  | .next t => t
  | .fault _ => State.reset
  | .refused _ => State.reset

/-- The response after an outcome; none unless it is a next state. -/
def answer (o : Outcome) : Option RspWord :=
  match o with
  | .next t => t.rsp
  | .fault _ => none
  | .refused _ => none

/-! ### Well-formedness: each check refuses an ill-formed word -/

/-- Check 1: `OP = 0x53` is reserved (R74). -/
theorem test_wellFormed_reserved_opcode :
    opDefined (fieldsOf 0x5300000000#40) = false ∧ (fieldsOf 0x5300000000#40).wellFormed = false := by decide

/-- Check 2: `CMOD` with `A = 1` (R73's example). -/
theorem test_wellFormed_operand_a :
    aClear (fieldsOf 0x1000010005#40) = false ∧ (fieldsOf 0x1000010005#40).wellFormed = false := by decide

/-- Check 3: `PUTC` with `B[8] = 1` (R73's example). -/
theorem test_wellFormed_operand_b :
    bClear (fieldsOf 0x5400000141#40) = false ∧ (fieldsOf 0x5400000141#40).wellFormed = false := by decide

/-- Check 3 on the other forms: `DECD` with `B[5] = 1` (R128), and a command without operands with `B = 1`. -/
theorem test_wellFormed_operand_b_short :
    bClear (fieldsOf 0x2000000020#40) = false ∧ bClear (fieldsOf 0x3400000001#40) = false := by decide

theorem test_wellFormed_commands :
    (fieldsOf 0x110009001A#40).wellFormed = true ∧ (fieldsOf 0x200000001F#40).wellFormed = true := by decide

/-! ### Decoding: words written out from the encoding -/

theorem test_decode_rdsr : decode 0x0100000000#40 = .ok .rdsr := by decide
theorem test_decode_cmod : decode 0x100000FFE5#40 = .ok (.cmod 0xFFE5) := by decide
theorem test_decode_gcd : decode 0x110009001A#40 = .ok (.gcd 9 26) := by decide
theorem test_decode_minv : decode 0x1200000009#40 = .ok (.minv 9) := by decide
theorem test_decode_mulm : decode 0x1300030017#40 = .ok (.mulm 3 23) := by decide
theorem test_decode_decd : decode 0x2000000017#40 = .ok (.decd 23) := by decide
theorem test_decode_ldk11 : decode 0x3000000003#40 = .ok (.ldk11 3) := by decide
theorem test_decode_ldk12 : decode 0x3100008000#40 = .ok (.ldk12 0x8000) := by decide
theorem test_decode_ldk21 : decode 0x3200000002#40 = .ok (.ldk21 2) := by decide
theorem test_decode_ldk22 : decode 0x3300000005#40 = .ok (.ldk22 5) := by decide
theorem test_decode_det : decode 0x3400000000#40 = .ok .det := by decide
theorem test_decode_isinv : decode 0x3500000000#40 = .ok .isinv := by decide
theorem test_decode_inv11 : decode 0x4000000000#40 = .ok .inv11 := by decide
theorem test_decode_inv12 : decode 0x4100000000#40 = .ok .inv12 := by decide
theorem test_decode_inv21 : decode 0x4200000000#40 = .ok .inv21 := by decide
theorem test_decode_inv22 : decode 0x4300000000#40 = .ok .inv22 := by decide
theorem test_decode_stenc : decode 0x5000000000#40 = .ok .stenc := by decide
theorem test_decode_stdec : decode 0x5100000000#40 = .ok .stdec := by decide
theorem test_decode_stprv : decode 0x5200000000#40 = .ok .stprv := by decide
theorem test_decode_putc : decode 0x5400000048#40 = .ok (.putc 0x48) := by decide
theorem test_decode_fin : decode 0x5500000000#40 = .ok .fin := by decide

/-- The table's numbering: bit 0 is bit 0 of the one word (R84). -/
theorem test_decodeTableWord : decodeTableWord 40 0x110009001A = some (.gcd 9 26) ∧ decodeTableWord 40 0 = none := by
  decide

/-! ### One step of each command -/

/-- R210: after `LDK11 3` and `LDK22 5` from reset, `DATA = 0x900`. -/
theorem test_rdsr_shows_key_present :
    answer (exec .rdsr { State.reset with engine := { Engine.reset with k11 := 3, k22 := 5, kv := 0b1001#4 } }) =
      some 0x00000000900#44 := by decide

/-- T196: in an `ENC` session after one letter `DATA = 0xF31`. -/
theorem test_rdsr_shows_session : answer (exec .rdsr (encSession true 7)) = some 0x00000000F31#44 := by decide

/-- R107: `CMOD -27` answers 25; `CMOD -32768` answers 18. -/
theorem test_cmod_negative : answer (exec (.cmod 0xFFE5) State.reset) = some 0x00000000019#44 := by decide
theorem test_cmod_least : answer (exec (.cmod 0x8000) State.reset) = some 0x00000000012#44 := by decide

/-- R108: `GCD -12, 18` answers 6; `GCD -32768, 0` answers 32768. -/
theorem test_gcd_signs : answer (exec (.gcd 0xFFF4 18) State.reset) = some 0x00000000006#44 := by decide
theorem test_gcd_least : answer (exec (.gcd 0x8000 0) State.reset) = some 0x00000008000#44 := by decide

/-- R109: `MINV -17` answers 3; `MINV 13` answers `NO_INVERSE`. -/
theorem test_minv_unit : answer (exec (.minv 0xFFEF) State.reset) = some 0x00000000003#44 := by decide
theorem test_minv_none : answer (exec (.minv 13) State.reset) = some 0x50000000000#44 := by decide

/-- R110: `MULM 3, 23` answers 17; `MULM 32767, -32768` answers 22. -/
theorem test_mulm_product : answer (exec (.mulm 3 23) State.reset) = some 0x00000000011#44 := by decide
theorem test_mulm_extremes : answer (exec (.mulm 0x7FFF 0x8000) State.reset) = some 0x00000000016#44 := by decide

/-- R128: `DECD 23` answers `X`; `DECD 31` answers `F`. -/
theorem test_decd_letter : answer (exec (.decd 23) State.reset) = some 0x00000000058#44 := by decide
theorem test_decd_reduced : answer (exec (.decd 31) State.reset) = some 0x00000000046#44 := by decide

/-- R140: `LDK11 29` stores 29, not 3, and sets bit 0 of `KV` alone. -/
theorem test_ldk11 :
    (after (exec (.ldk11 29) State.reset)).engine = { Engine.reset with k11 := 29, kv := 0b0001#4 } := by decide

/-- R140: in `RUN` the command gets `BAD_STATE`. -/
theorem test_ldk11_in_run : answer (exec (.ldk11 9) (encSession true 7)) = some 0x70000000000#44 := by decide

/-- R149, R150, R151. -/
theorem test_ldk12 :
    (after (exec (.ldk12 0x8000) State.reset)).engine = { Engine.reset with k12 := 0x8000, kv := 0b0010#4 } := by decide
theorem test_ldk21 :
    (after (exec (.ldk21 2) State.reset)).engine = { Engine.reset with k21 := 2, kv := 0b0100#4 } := by decide
theorem test_ldk22 :
    (after (exec (.ldk22 5) State.reset)).engine = { Engine.reset with k22 := 5, kv := 0b1000#4 } := by decide

/-- R144: determinant -329; the upper extreme of R143. -/
theorem test_det_negative : answer (exec .det (keyed (-23) 29 28 (-21))) = some 0x000FFFFFEB7#44 := by decide
theorem test_det_extreme :
    answer (exec .det (keyed (-32768) (-32768) 32767 (-32768))) = some 0x0007FFF8000#44 := by decide

/-- R145: the key of the worked example is invertible; residue 13 is not. -/
theorem test_isinv_yes : answer (exec .isinv (keyed 3 3 2 5)) = some 0x00000000001#44 := by decide
theorem test_isinv_residue13 : answer (exec .isinv (keyed 13 0 0 1)) = some 0x00000000000#44 := by decide

/-- V8a to V8d: the inverse of `[[3, 3], [2, 5]]` is `[[15, 17], [20, 9]]`. -/
theorem test_inv11 : answer (exec .inv11 (keyed 3 3 2 5)) = some 0x0000000000F#44 := by decide
theorem test_inv12 : answer (exec .inv12 (keyed 3 3 2 5)) = some 0x00000000011#44 := by decide
theorem test_inv21 : answer (exec .inv21 (keyed 3 3 2 5)) = some 0x00000000014#44 := by decide
theorem test_inv22 : answer (exec .inv22 (keyed 3 3 2 5)) = some 0x00000000009#44 := by decide

/-- R164: a key that is not invertible: `FAULT`. -/
theorem test_inv11_faults : after (exec .inv11 (keyed 2 4 1 2)) = { faulted with rsp := some 0x40000000000#44 } := by
  decide

/-- R166: exact negation of -32768. -/
theorem test_inv12_exact : answer (exec .inv12 (keyed 1 (-32768) 1 1)) = some 0x00000000018#44 := by decide

/-- R177: `[[-23, 29], [28, -21]]` loads `[[3, 3], [2, 5]]`. -/
theorem test_stenc_reduces :
    (let e := (after (exec .stenc (keyed (-23) 29 28 (-21)))).engine
     (e.m11, e.m12, e.m21, e.m22, e.fsm, e.mode, e.kv)) = (3, 3, 2, 5, .run, .enc, 0b1111#4) := by decide

/-- R145, R148: `[[1, 2], [3, 4]]` has determinant -2 and residue 24; the key is consumed. -/
theorem test_stenc_rejects :
    answer (exec .stenc (keyed 1 2 3 4)) = some 0x218FFFFFFFE#44 ∧
      (after (exec .stenc (keyed 1 2 3 4))).engine = Engine.reset := by decide

/-- V3a: `STDEC` loads the inverse. -/
theorem test_stdec_inverts :
    (let e := (after (exec .stdec (keyed 3 3 2 5))).engine
     (e.m11, e.m12, e.m21, e.m22, e.fsm, e.mode)) = (15, 17, 20, 9, .run, .dec) := by decide

/-- V2e. -/
theorem test_stdec_rejects : answer (exec .stdec (keyed 2 4 1 2)) = some 0x20000000000#44 := by decide

/-- R179: from reset, `FSM = RUN` and `MODE = PRV`, nothing else. -/
theorem test_stprv :
    (after (exec .stprv State.reset)).engine = { Engine.reset with fsm := .run, mode := .prv } := by decide

/-- V7a: the second letter of the pair (7, 4). -/
theorem test_putc_completes_pair : answer (exec (.putc 0x45) (encSession true 7)) = some 0x00100004849#44 := by decide

/-- R180: a space sets `ANYCHAR` and does nothing else. -/
theorem test_putc_strips :
    (after (exec (.putc 0x20) (decSession false 0 false))).engine =
      { (decSession false 0 false).engine with anychar := true } := by decide

/-- T160: `FIN` after one letter `H` answers the padded pair; the call is over. -/
theorem test_fin_pads :
    answer (exec .fin (encSession true 7)) = some 0x00100004D5A#44 ∧
      (after (exec .fin (encSession true 7))).engine = Engine.reset := by decide

/-- V3b: a `DEC` session without any `PUTC`. -/
theorem test_fin_empty : answer (exec .fin (decSession false 0 false)) = some 0x30000000000#44 := by decide

/-- R230: an illegal word beats everything else. -/
theorem test_illegal_word : answer (accept 0x5400010041#40 faulted) = some 0x60000000000#44 := by decide

/-- R250: `rst` with a response outstanding and the engine in `FAULT`. -/
theorem test_reset_step :
    after (step { faulted with rsp := some 0x40000000000#44, host := [.reset] }) = State.reset := by decide

/-- A placed word is the command that the next step runs (log entry 1). -/
theorem test_withFetchWord :
    answer (step (State.reset.withFetchWord 40 0x1200000009)) = some 0x00000000003#44 := by decide

/-- R85: a line, and one whose operand is out of its range. -/
theorem test_assembler :
    assembleLine ['M', 'U', 'L', 'M', ' ', '3', ',', ' ', '2', '3'] = some 0x1300030017#40 ∧
      assembleLine ['D', 'E', 'C', 'D', ' ', '3', '2'] = none := by decide

/-! ### Witnesses: the hypotheses of the statements are met -/

theorem witness_DecodeAndEncodeAgree : decode 0x5400000048#40 = .ok (.putc 0x48) := by decide

/-- Both values of `OP`, each with the hypothesis that no row is met. -/
theorem witness_EveryWordIsOneCommandOrIllegal :
    (opField 0x0000000000#40 = 0x00#8 ∧ ∀ r ∈ opcodeTable, r.hits 0x0000000000#40 = false) ∧
      (opField 0x53FFFFFFFF#40 = 0x53#8 ∧ ∀ r ∈ opcodeTable, r.hits 0x53FFFFFFFF#40 = false) := by decide

theorem witness_MustBeZeroBitsMakeAWordIllegal :
    opDefined (fieldsOf 0x5500000001#40) = true ∧
      (aClear (fieldsOf 0x5500000001#40) && bClear (fieldsOf 0x5500000001#40)) = false := by decide

theorem witness_StepRunsTheDecodedCommand :
    ({ keyed 3 3 2 5 with host := [.command 0x3400000000#40, .take] } : State).host =
        .command 0x3400000000#40 :: [.take] ∧
      (keyed 3 3 2 5).rsp = none ∧ decode 0x3400000000#40 = .ok .det := by decide

theorem witness_FetchedWordRunsNext : decodeTableWord 40 0x5500000000 = some .fin := by decide

/-- A command accepted; then each of the three ways a step can leave an engine that is not ready; a command and a reset
that change the engine; a response taken. -/
theorem witness_OneCommandOutstanding :
    (let s : State := { State.reset with host := [.command 0x0100000000#40] }
     step s = .next (after (step s)) ∧ cmdReady s = true ∧ cmdReady (after (step s)) = false) ∧
    (∀ m ∈ [HostMove.command 0x0100000000#40, .take, .reset],
      (let s : State := { State.reset with rsp := some 0, host := [m] }
       step s = .next (after (step s)) ∧ cmdReady s = false)) ∧
    (∀ m ∈ [HostMove.command 0x5000000000#40, .reset],
      (let s : State := { keyed 3 3 2 5 with host := [m] }
       step s = .next (after (step s)) ∧ (after (step s)).engine ≠ s.engine)) ∧
    ({ State.reset with rsp := some 0, host := [.take] } : State).host = .take :: [] := by
  refine ⟨⟨rfl, by decide⟩, fun m h => ?_, fun m h => ?_, rfl⟩ <;>
    simp only [List.mem_cons, List.not_mem_nil, or_false] at h
  · rcases h with rfl | rfl | rfl <;> exact ⟨rfl, by decide⟩
  · rcases h with rfl | rfl <;> exact ⟨rfl, by decide⟩

theorem witness_PortRunIsTheRunOfTheWords : (keyed 3 3 2 5).rsp = none ∧ (keyed 3 3 2 5).host = [] := by decide

theorem witness_ResetPutsEveryRegisterToZero :
    ({ faulted with rsp := some 0, host := [.reset, .take] } : State).host = .reset :: [.take] := by decide

/-- The invariants hold in an `ENC` session that holds a digit, and a step is taken. -/
theorem witness_EveryStepKeepsTheInvariants :
    EngineInv (encSession true 25).engine ∧
      step { encSession true 25 with host := [.command 0x540000005A#40] } =
        .next (after (step { encSession true 25 with host := [.command 0x540000005A#40] })) := by
  refine ⟨⟨?_, ?_, ?_, ?_, ?_, ?_⟩, rfl⟩
  · unfold idleClear; decide
  · unfold faultKeyless; decide
  · unfold bufferCoherent; decide
  · unfold residuesInRange; decide
  · intro _
    show _ ∧ _ ∧ _
    decide
  · unfold absentKeyZero; decide

theorem witness_CommandsOutOfPlaceChangeNothing :
    (faulted.engine.fsm = .fault ∧ Instr.fin ≠ .rdsr) ∧
    ((encSession true 7).engine.fsm = .run ∧ Instr.det ≠ .rdsr ∧ Instr.det ≠ .fin ∧ ∀ ch, Instr.det ≠ .putc ch) ∧
    (State.reset.engine.fsm = .idle ∧ Instr.fin = .fin) ∧
    (State.reset.engine.fsm = .idle ∧ ∃ ch, Instr.putc 0x41 = .putc ch) :=
  ⟨⟨rfl, by decide⟩, ⟨rfl, by decide, by decide, fun ch => by simp⟩, ⟨rfl, rfl⟩, rfl, 0x41, rfl⟩

theorem witness_FaultIsLeftByResetOnly :
    faulted.engine.fsm = .fault ∧ decode 0x0000000000#40 = .error (.reservedOpcode 0) ∧ Instr.stenc ≠ .rdsr ∧
      step { faulted with host := [.reset] } = .next (after (step { faulted with host := [.reset] })) :=
  ⟨rfl, by decide, by decide, rfl⟩

/-- Every row of the table that leaves its state, a command that stays, one turned away in `RUN`, an illegal word, a reset,
and the two kinds of step that move `FSM`. -/
theorem witness_FsmTransitionsAreTheTable :
    (fsmMove (keyed 3 3 2 5).engine .stenc .run ∧ fsmMove (keyed 3 3 2 5).engine .stdec .run ∧
      fsmMove State.reset.engine .stprv .run ∧ fsmMove (keyed 2 4 1 2).engine .inv21 .fault ∧
      fsmMove (encSession true 7).engine .fin .idle) ∧
    (∀ f, ¬fsmMove (keyed 2 4 1 2).engine .stenc f) ∧
    ((keyed 3 3 2 5).engine.fsm = .idle ∧ (after (exec .stdec (keyed 3 3 2 5))).engine.fsm = .run) ∧
    decode 0x5300000000#40 = .error (.reservedOpcode 0x53) ∧
    ({ faulted with host := [.reset] } : State).host = .reset :: [] ∧
    ((encSession true 7).engine.fsm = .run ∧ Instr.rdsr ≠ .fin ∧ ∀ ch, Instr.rdsr ≠ .putc ch) ∧
    ∀ s ∈ [{ faulted with host := [.reset] }, { keyed 2 4 1 2 with host := [.command 0x4000000000#40] }],
      step s = .next (after (step s)) ∧ (after (step s)).engine.fsm ≠ s.engine.fsm := by
  refine ⟨⟨?_, ?_, ?_, ?_, ?_⟩, ?_, by decide, by decide, by decide,
    ⟨rfl, by decide, fun ch => Instr.noConfusion⟩, fun s h => ?_⟩
  · unfold fsmMove keyAdmitted keyInadmissible; decide
  · unfold fsmMove keyAdmitted keyInadmissible; decide
  · unfold fsmMove keyAdmitted keyInadmissible; decide
  · unfold fsmMove keyAdmitted keyInadmissible; decide
  · unfold fsmMove keyAdmitted keyInadmissible; decide
  · intro f
    unfold fsmMove keyAdmitted keyInadmissible
    cases f <;> decide
  · simp only [List.mem_cons, List.not_mem_nil, or_false] at h
    rcases h with rfl | rfl <;> exact ⟨rfl, by decide⟩

/-- A command of each kind that the statement names, each giving a next state. -/
theorem witness_OnlyTheseCommandsWriteTheKey :
    ∀ p ∈ [(Instr.det, keyed 3 3 2 5), (.ldk22 0, State.reset), (.stenc, keyed 2 4 1 2), (.stdec, State.reset),
        (.fin, encSession true 7), (.inv12, keyed 2 4 1 2)],
      exec p.1 p.2 = .next (after (exec p.1 p.2)) := by
  simp only [List.forall_mem_cons]
  exact ⟨rfl, rfl, rfl, rfl, rfl, rfl, by simp⟩

theorem witness_OnlyTheseCommandsWriteTheSession :
    ∀ p ∈ [(Instr.cmod 5, State.reset), (.stenc, keyed 3 3 2 5), (.stdec, keyed 3 3 2 5), (.stprv, State.reset),
        (.putc 0x41, encSession true 7), (.fin, decSession true 7 true), (.inv22, keyed 2 4 1 2)],
      exec p.1 p.2 = .next (after (exec p.1 p.2)) := by
  simp only [List.forall_mem_cons]
  exact ⟨rfl, rfl, rfl, rfl, rfl, rfl, rfl, by simp⟩

/-- A reading command; an `INVij` that answers and one that faults; a load of the greatest value. -/
theorem witness_ReadingCommandsChangeNothing :
    (exec .isinv (keyed 3 3 2 5) = .next (after (exec .isinv (keyed 3 3 2 5))) ∧
      Instr.isinv ∈ [Instr.rdsr, .det, .isinv]) ∧
    exec .inv11 (keyed 3 3 2 5) = .next (after (exec .inv11 (keyed 3 3 2 5))) ∧
    exec .inv11 (keyed 2 4 1 2) = .next (after (exec .inv11 (keyed 2 4 1 2))) ∧
    exec (.ldk12 0x7FFF) State.reset = .next (after (exec (.ldk12 0x7FFF) State.reset)) :=
  ⟨⟨rfl, by decide⟩, rfl, rfl, rfl⟩

/-- A word answered with a status that is neither `OK` nor `NON_INVERTIBLE_KEY`, one answered `NON_INVERTIBLE_KEY`, and
one answered `OK` by a `PUTC` without a pair. -/
theorem witness_UnusedResponseBitsAreZero :
    (accept 0x1200000002#40 State.reset = .next (after (accept 0x1200000002#40 State.reset)) ∧
      (after (accept 0x1200000002#40 State.reset)).rsp = some 0x50000000000#44 ∧
      rspSt 0x50000000000#44 ≠ statusCode .ok ∧ rspSt 0x50000000000#44 ≠ statusCode .nonInvertibleKey) ∧
    (accept 0x5000000000#40 (keyed 1 2 3 4) = .next (after (accept 0x5000000000#40 (keyed 1 2 3 4))) ∧
      (after (accept 0x5000000000#40 (keyed 1 2 3 4))).rsp = some 0x218FFFFFFFE#44 ∧
      rspSt 0x218FFFFFFFE#44 = statusCode .nonInvertibleKey) ∧
    (accept 0x5400000048#40 (encSession false 0) = .next (after (accept 0x5400000048#40 (encSession false 0))) ∧
      (after (accept 0x5400000048#40 (encSession false 0))).rsp = some 0x00000000000#44 ∧
      rspSt 0x00000000000#44 = statusCode .ok ∧ rspAux 0x00000000000#44 = 0) :=
  ⟨⟨rfl, by decide, by decide, by decide⟩, ⟨rfl, by decide, by decide⟩, rfl, by decide, by decide, by decide⟩

/-- Two states that differ in the key, the working matrix and `FIRST` only. -/
theorem witness_StatusDoesNotShowTheKey :
    (let s := encSession true 7
     let s' : State := { s with engine := { s.engine with k11 := 29, m12 := 1, first := 8 } }
     s.engine.kv = s'.engine.kv ∧ s.engine.fsm = s'.engine.fsm ∧ s.engine.mode = s'.engine.mode ∧
       s.engine.half = s'.engine.half ∧ s.engine.anychar = s'.engine.anychar ∧
       exec .rdsr s = .next (after (exec .rdsr s)) ∧ exec .rdsr s' = .next (after (exec .rdsr s'))) :=
  ⟨rfl, rfl, rfl, rfl, rfl, rfl, rfl⟩

/-- Both ends of the range of a residue. -/
theorem witness_CanonicalResidueLaws :
    ((0 : Int) ≤ 25 ∧ (25 : Int) ≤ 25 ∧ (26 : Int) ∣ (-27) - 25) ∧
      ((0 : Int) ≤ 0 ∧ (0 : Int) ≤ 25 ∧ (26 : Int) ∣ (-26) - 0) := by decide

theorem witness_EuclidComputesTheGreatestCommonDivisor :
    ((-6 : Int) ∣ -12 ∧ (-6 : Int) ∣ 18) ∧ ((0 : Int) ≤ 0 ∧ (25 : Int) ≤ 25) := by decide

theorem witness_InverseSearchFindsTheUnits : cmod26 (-17) = cmod26 35 ∧ minv26 35 = some 3 := by decide

theorem witness_InverterInvertsModulo26 :
    invert { a := 3, b := 3, c := 2, d := 5 } = some { a := 15, b := 17, c := 20, d := 9 } := by decide

/-- `legalOnlyInIdle` and `legalOnlyInRun`: a state in each of the three states of `FSM`. -/
theorem witness_legalOnlyIn :
    State.reset.engine.fsm = .idle ∧ (encSession true 7).engine.fsm = .run ∧ faulted.engine.fsm = .fault := by decide

theorem witness_CmodAnswersTheResidue : State.reset.engine.fsm = .idle := rfl
theorem witness_GcdAnswersTheGreatestCommonDivisor : State.reset.engine.fsm = .idle := rfl
theorem witness_MulmAnswersTheProduct : State.reset.engine.fsm = .idle := rfl
theorem witness_DecdAnswersTheLetter : State.reset.engine.fsm = .idle := rfl
theorem witness_LoadCommandsStoreOneEntry : (keyed 3 3 2 5).engine.fsm = .idle := rfl
theorem witness_StprvOpensAPreview : (keyed 2 4 1 2).engine.fsm = .idle := rfl
theorem witness_PreviewCallReturnsTheDigitPairs : (keyed 2 4 1 2).engine.fsm = .idle := rfl

/-- A unit and a residue that is none: 25 and 13. -/
theorem witness_MinvAnswersTheInverse :
    State.reset.engine.fsm = .idle ∧ Int.gcd ((0xFFFF#16).toInt % 26) 26 = 1 ∧ Int.gcd ((13#16).toInt % 26) 26 ≠ 1 := by
  decide

/-- An engine with three entries loaded, the last absent. -/
def threeEntries : State := { keyed 2 4 1 0 with engine := { (keyed 2 4 1 0).engine with kv := 0b0111#4 } }

theorem witness_AbsentEntriesAreMissingKey :
    threeEntries.engine.fsm = .idle ∧ threeEntries.engine.kv ≠ 0b1111#4 ∧
      Instr.det ∈ [Instr.det, .isinv, .inv11, .inv12, .inv21, .inv22] ∧ Instr.stenc ∈ [Instr.stenc, .stdec] := by decide

/-- An entry absent, and all entries present with the key of the greatest determinant. -/
theorem witness_DetAnswersTheDeterminant :
    (threeEntries.engine.fsm = .idle ∧ threeEntries.engine.kv ≠ 0b1111#4) ∧
      (keyed (-32768) (-32768) 32767 (-32768)).engine.fsm = .idle ∧
      (keyed (-32768) (-32768) 32767 (-32768)).engine.kv = 0b1111#4 := by decide

theorem witness_IsinvAnswersTheTest :
    (threeEntries.engine.fsm = .idle ∧ threeEntries.engine.kv ≠ 0b1111#4) ∧
      (keyed 13 0 0 1).engine.fsm = .idle ∧ (keyed 13 0 0 1).engine.kv = 0b1111#4 := by decide

/-- An invertible key and the inverse of its determinant: `INVij` and `STDEC`. The determinant is 9, its inverse 3. -/
theorem witness_InverseEntriesAreAnswered :
    (keyed 3 3 2 5).engine.fsm = .idle ∧ (keyed 3 3 2 5).engine.kv = 0b1111#4 ∧ (1 : Int) ≤ 3 ∧ (3 : Int) ≤ 25 ∧
      ((keyed 3 3 2 5).engine.k11.toInt * (keyed 3 3 2 5).engine.k22.toInt -
        (keyed 3 3 2 5).engine.k12.toInt * (keyed 3 3 2 5).engine.k21.toInt) * 3 % 26 = 1 := by decide

/-- The same at the upper end of the inverse's range: determinant -1, inverse 25. -/
theorem witness_StdecOpensADecryptSession :
    (keyed 0 1 1 0).engine.fsm = .idle ∧ (keyed 0 1 1 0).engine.kv = 0b1111#4 ∧ (1 : Int) ≤ 25 ∧ (25 : Int) ≤ 25 ∧
      ((keyed 0 1 1 0).engine.k11.toInt * (keyed 0 1 1 0).engine.k22.toInt -
        (keyed 0 1 1 0).engine.k12.toInt * (keyed 0 1 1 0).engine.k21.toInt) * 25 % 26 = 1 := by decide

/-- A key that is present and not invertible: the fault of `INVij`, the rejection of `STENC` and `STDEC`. -/
theorem witness_RejectedKeyIsReportedAndConsumed :
    (keyed 1 2 3 4).engine.fsm = .idle ∧ (keyed 1 2 3 4).engine.kv = 0b1111#4 ∧
      (-2 : Int) = (keyed 1 2 3 4).engine.k11.toInt * (keyed 1 2 3 4).engine.k22.toInt -
        (keyed 1 2 3 4).engine.k12.toInt * (keyed 1 2 3 4).engine.k21.toInt ∧
      Int.gcd ((-2 : Int) % 26) 26 ≠ 1 := by decide

/-- A key that the gate admits, with entries at the ends of their range. -/
theorem witness_StencOpensAnEncryptSession :
    (keyed 1 (-32768) 1 1).engine.fsm = .idle ∧ (keyed 1 (-32768) 1 1).engine.kv = 0b1111#4 ∧
      Int.gcd (((keyed 1 (-32768) 1 1).engine.k11.toInt * (keyed 1 (-32768) 1 1).engine.k22.toInt -
        (keyed 1 (-32768) 1 1).engine.k12.toInt * (keyed 1 (-32768) 1 1).engine.k21.toInt) % 26) 26 = 1 := by decide

theorem witness_StdecNeverFindsAnInconsistency :
    (keyed 3 3 2 5).engine.fsm ≠ .fault ∧ exec .stdec (keyed 3 3 2 5) = .next (after (exec .stdec (keyed 3 3 2 5))) :=
  ⟨by decide, rfl⟩

/-- The gate on a key that it admits and on one that it rejects. -/
theorem witness_GateIsTheSameForBothDirections :
    ∀ s ∈ [keyed 3 3 2 5, keyed 2 4 1 2],
      s.engine.fsm = .idle ∧ s.engine.kv = 0b1111#4 ∧ exec .stenc s = .next (after (exec .stenc s)) ∧
        exec .stdec s = .next (after (exec .stdec s)) ∧ exec .isinv s = .next (after (exec .isinv s)) := by
  simp only [List.forall_mem_cons]
  exact ⟨⟨rfl, rfl, rfl, rfl, rfl⟩, ⟨rfl, rfl, rfl, rfl, rfl⟩, by simp⟩

/-- The codes next to the letters are no letters; the first and the last letter, both cases; each of the three states
of a session that the clauses tell apart. -/
theorem witness_PutcStoresOrCompletesAPair :
    (∀ ch ∈ [0x40#8, 0x5B#8, 0x60#8, 0x7B#8],
      ¬(0x41 ≤ ch.toNat ∧ ch.toNat ≤ 0x5A) ∧ ¬(0x61 ≤ ch.toNat ∧ ch.toNat ≤ 0x7A)) ∧
    (0x41#8).toNat = 0x41 + 0 ∧ (0x5A#8).toNat = 0x41 + 25 ∧ (0x61#8).toNat = 0x61 + 0 ∧ (0x7A#8).toNat = 0x61 + 25 ∧
    ((encSession false 0).engine.fsm = .run ∧ (encSession false 0).engine.half = false) ∧
    ((prvSession true 25).engine.fsm = .run ∧ (prvSession true 25).engine.half = true ∧
      (prvSession true 25).engine.mode = .prv) ∧
    ((decSession true 25 true).engine.fsm = .run ∧ (decSession true 25 true).engine.half = true ∧
      (decSession true 25 true).engine.mode ≠ .prv) := by decide

/-- A state for each of the four answers of `FIN`. -/
theorem witness_FinEndsTheCall :
    (∀ s ∈ [decSession false 0 false, decSession false 0 true, prvSession true 7, encSession true 7],
      s.engine.fsm = .run) ∧
    ((decSession false 0 false).engine.mode = .dec ∧ (decSession false 0 false).engine.anychar = false) ∧
    (¬((decSession false 0 true).engine.mode = .dec ∧ (decSession false 0 true).engine.anychar = false) ∧
      (decSession false 0 true).engine.half = false) ∧
    ((prvSession true 7).engine.mode = .prv ∧ (prvSession true 7).engine.half = true) ∧
    ((encSession true 7).engine.mode ≠ .prv ∧
      ¬((encSession true 7).engine.mode = .dec ∧ (encSession true 7).engine.anychar = false) ∧
      (encSession true 7).engine.half = true) := by decide

/-- The invariants hold in `IDLE` with any key loaded. -/
theorem keyed_inv (a b c d : Int) : EngineInv (keyed a b c d).engine := by
  refine ⟨?_, ?_, ?_, ?_, ?_, ?_⟩ <;>
    simp [idleClear, faultKeyless, bufferCoherent, residuesInRange, sessionKeyed, absentKeyZero, keyed]

/-- Two idle states that differ in the key an earlier call left. -/
theorem witness_CallsAreIndependent :
    ((keyed 3 3 2 5).engine.fsm = .idle ∧ EngineInv (keyed 3 3 2 5).engine) ∧
      ((keyed 2 4 1 2).engine.fsm = .idle ∧ EngineInv (keyed 2 4 1 2).engine) ∧
      Pseudo.preview [0x48#8] ∈ [Pseudo.encrypt [0x48#8] 3 3 2 5, .decrypt [0x48#8] 3 3 2 5, .preview [0x48#8]] :=
  ⟨⟨rfl, keyed_inv _ _ _ _⟩, ⟨rfl, keyed_inv _ _ _ _⟩, by decide⟩

/-- The state a call starts in, and an invertible key. -/
theorem witness_EncryptCallComputesTheCipher :
    State.reset.engine.fsm = .idle ∧ isInvertible (keyOf 3 3 2 5) = true := by decide

theorem witness_DecryptCallComputesTheInverseCipher :
    State.reset.engine.fsm = .idle ∧
      invert (keyOf 3 3 2 5) = some { a := 15, b := 17, c := 20, d := 9 } ∧ [0x48#8] ≠ [] := by decide

theorem witness_RejectedCallsGiveNoOutput :
    ((keyed 3 3 2 5).engine.fsm = .idle ∧ EngineInv (keyed 3 3 2 5).engine ∧ isInvertible (keyOf 2 4 1 2) = false) ∧
      Pseudo.decrypt [0x48#8] 2 4 1 2 ∈ [Pseudo.encrypt [0x48#8] 2 4 1 2, .decrypt [0x48#8] 2 4 1 2] :=
  ⟨⟨rfl, keyed_inv _ _ _ _, by decide⟩, by decide⟩

/-- V7, V9: "HELP" encrypts to "HIAT"; a text with a letter, and one without. -/
theorem witness_DecryptionUndoesEncryption :
    (State.reset.engine.fsm = .idle ∧ isInvertible (keyOf 3 3 2 5) = true ∧
      callResult (runPseudo (.encrypt [0x48#8, 0x45#8, 0x4C#8, 0x50#8] 3 3 2 5) State.reset).2 =
        .ok [0x48#8, 0x49#8, 0x41#8, 0x54#8] ∧
      [0x48#8, 0x45#8, 0x4C#8, 0x50#8].filter isLetter ≠ []) ∧
    (callResult (runPseudo (.encrypt [0x20#8] 3 3 2 5) State.reset).2 = .ok [] ∧
      [0x20#8].filter isLetter = []) := by decide

/-- A state in `RUN` and one in `FAULT`, and both pseudo-commands that have a stop rule. -/
theorem witness_CallsOutsideIdleIssueTheirExpansion :
    (encSession true 7).engine.fsm = .run ∧ faulted.engine.fsm = .fault ∧
      Pseudo.encrypt [0x48#8] 3 3 2 5 ∈ [Pseudo.encrypt [0x48#8] 3 3 2 5, .decrypt [0x48#8] 3 3 2 5] ∧
      Pseudo.decrypt [0x48#8] 3 3 2 5 ∈ [Pseudo.encrypt [0x48#8] 3 3 2 5, .decrypt [0x48#8] 3 3 2 5] := by decide

/-- R86: `PREVIEW "E"` in an `ENC` session that holds `H` (V7a): `STPRV` is turned away, the `E` completes the session's
pair, and `FIN` ends its call. -/
theorem test_preview_in_run :
    (runPseudo (.preview [0x45#8]) (encSession true 7)).2 = [0x70000000000#44, 0x00100004849#44, 0x00000000000#44] ∧
      (runPseudo (.preview [0x45#8]) (encSession true 7)).1.engine = Engine.reset := by decide

end Sys2Proof.Tests
end

section
/-! Words and decoding (`30_encoding.md` R70 to R74, R226). The three checks on the fields of a word decide both what the
decoder answers (`decode_cases`) and whether the word meets a row of the opcode map (`hits_iff_wellFormed`); the two
statements are read off from these. -/

namespace Sys2Proof

open Machine

/-! ### The bits a form assigns to operands, and the checks as masks -/

/-- How many low bits of `A` the form assigns to an operand (R71). -/
def OperandForm.aBits : OperandForm → Nat
  | .s16InAB => 16
  | .s16InB | .u5InB | .u8InB | .none => 0

/-- How many low bits of `B` the form assigns to an operand (R71). -/
def OperandForm.bBits : OperandForm → Nat
  | .s16InB | .s16InAB => 16
  | .u5InB => 5
  | .u8InB => 8
  | .none => 0

/-- The must-be-zero bits of a 16-bit field whose low `n` bits are an operand. -/
def mustBeZeroMask (n : Nat) : BitVec 16 := BitVec.allOnes 16 <<< n

@[simp] theorem and_mustBeZeroMask_zero (v : BitVec 16) : v &&& mustBeZeroMask 0 = v :=
  BitVec.and_allOnes

@[simp] theorem and_mustBeZeroMask_sixteen (v : BitVec 16) : v &&& mustBeZeroMask 16 = 0#16 :=
  BitVec.and_zero

/-- The masked field is zero exactly when its bits above the operand are. -/
theorem and_mustBeZeroMask_eq_zero_iff (v : BitVec 16) {n m : Nat} (h : n + m = 16) :
    v &&& mustBeZeroMask n = 0#16 ↔ v.extractLsb' n m = 0#m := by
  constructor
  · intro hv
    ext i hi
    have hbit := congrArg (fun x : BitVec 16 => x.getLsbD (n + i)) hv
    simpa [mustBeZeroMask, -BitVec.reduceAllOnes, show n + i < 16 by omega] using hbit
  · intro hv
    ext i hi
    by_cases hn : n ≤ i
    · have hbit := congrArg (fun x : BitVec m => x.getLsbD (i - n)) hv
      have hvi : v[i] = false := by
        simpa [show i - n < m by omega, show n + (i - n) = i by omega, hi] using hbit
      simp [hvi]
    · simp [mustBeZeroMask, -BitVec.reduceAllOnes, show i < n by omega]

/-- Check 2 is the mask on `A` (R73). -/
theorem aClear_iff {f : CmdFields} {fm : OperandForm} (h : formOf f.op = some fm) :
    aClear f = true ↔ f.a &&& mustBeZeroMask fm.aBits = 0#16 := by
  cases fm <;> simp [aClear, h, OperandForm.aBits]

/-- Check 3 is the mask on `B` (R73). -/
theorem bClear_iff {f : CmdFields} {fm : OperandForm} (h : formOf f.op = some fm) :
    bClear f = true ↔ f.b &&& mustBeZeroMask fm.bBits = 0#16 := by
  cases fm with
  | s16InB => simp [bClear, h, OperandForm.bBits]
  | s16InAB => simp [bClear, h, OperandForm.bBits]
  | u5InB => simp [bClear, h, OperandForm.bBits, and_mustBeZeroMask_eq_zero_iff f.b (show 5 + 11 = 16 from rfl)]
  | u8InB => simp [bClear, h, OperandForm.bBits, and_mustBeZeroMask_eq_zero_iff f.b (show 8 + 8 = 16 from rfl)]
  | none => simp [bClear, h, OperandForm.bBits]

/-! ### The rows of the opcode map -/

/-- Packed words are equal exactly when their fields are. -/
theorem packFields_inj {op op' : BitVec 8} {a a' b b' : BitVec 16} :
    packFields op a b = packFields op' a' b' ↔ op = op' ∧ a = a' ∧ b = b' := by
  constructor
  · intro h
    have hf := congrArg fieldsOf h
    simpa using hf
  · rintro ⟨rfl, rfl, rfl⟩
    rfl

/-- A masked word, field by field. -/
theorem and_packFields (w : CmdWord) (m : BitVec 8) (am bm : BitVec 16) :
    w &&& packFields m am bm = packFields (opField w &&& m) (aField w &&& am) (bField w &&& bm) := by
  conv_lhs => rw [← packFields_fields w]
  exact BitVec.and_append.trans (congrArg (· ++ _) BitVec.and_append)

/-- Every row's pattern is its opcode, and its mask covers `OP` and the must-be-zero bits of the opcode's form (R72). -/
theorem row_pattern_and_mask {r : OpRow} (hr : r ∈ opcodeTable) :
    ∃ fm, formOf (opField r.pattern) = some fm ∧ r.pattern = packFields (opField r.pattern) 0#16 0#16 ∧
      r.mask = packFields 0xFF#8 (mustBeZeroMask fm.aBits) (mustBeZeroMask fm.bBits) := by
  have table : ∀ r ∈ opcodeTable, (formOf (opField r.pattern)).any fun fm =>
      r.pattern == packFields (opField r.pattern) 0#16 0#16 &&
        r.mask == packFields 0xFF#8 (mustBeZeroMask fm.aBits) (mustBeZeroMask fm.bBits) := by decide
  simpa only [Option.any_eq_true, Bool.and_eq_true, beq_iff_eq] using table r hr

/-- A word meets a row exactly when it has the row's opcode and passes the checks. -/
theorem hits_iff_wellFormed {r : OpRow} (hr : r ∈ opcodeTable) (w : CmdWord) :
    r.hits w = true ↔ opField w = opField r.pattern ∧ (fieldsOf w).wellFormed = true := by
  obtain ⟨fm, hform, hpattern, hmask⟩ := row_pattern_and_mask hr
  have hhits : r.hits w = true ↔ opField w = opField r.pattern ∧
      aField w &&& mustBeZeroMask fm.aBits = 0#16 ∧ bField w &&& mustBeZeroMask fm.bBits = 0#16 := by
    rw [OpRow.hits, beq_iff_eq, hmask, hpattern, and_packFields, packFields_inj, opField_pack,
      show (0xFF#8) = BitVec.allOnes 8 from rfl, BitVec.and_allOnes]
  rw [hhits]
  refine and_congr_right fun hop => ?_
  have hf : formOf (fieldsOf w).op = some fm := by rw [← hform, ← hop]; rfl
  rw [CmdFields.wellFormed, Bool.and_eq_true, Bool.and_eq_true, aClear_iff hf, bClear_iff hf]
  simp only [opDefined, hf, Option.isSome_some, true_and]
  exact Iff.rfl

/-- No two rows share an opcode (R72). -/
theorem row_eq_of_opcode_eq {r r' : OpRow} (hr : r ∈ opcodeTable) (hr' : r' ∈ opcodeTable)
    (h : opField r.pattern = opField r'.pattern) : r = r' := by
  have opcodes_nodup : (opcodeTable.map fun r => opField r.pattern).Nodup := by decide
  exact List.inj_on_of_nodup_map opcodes_nodup hr hr' h

/-- The row of a command is a row of the map. -/
theorem row_mem {i : Instr} {r : OpRow} (h : i.row = some r) : r ∈ opcodeTable :=
  List.mem_of_find?_eq_some h

/-! ### What the decoder answers -/

/-- What `d` says of the fields `f` of a defined opcode: a command in the opcode's row when the checks of R73 pass, and
the must-be-zero rejection when one fails. -/
def AnswersByChecks (f : CmdFields) (d : Decoded) : Prop :=
  opDefined f = true ∧ ∃ i r, i.row = some r ∧ opField r.pattern = f.op ∧
    d = if aClear f && bClear f then .ok i else .error (.mustBeZero f.op)

theorem formS16_answers {f : CmdFields} {k : KeyWord → Instr} {r : OpRow} (hf : formOf f.op = some .s16InB)
    (hrow : (k f.b).row = some r) (hop : opField r.pattern = f.op) : AnswersByChecks f (formS16 f k) :=
  ⟨by simp [opDefined, hf], k f.b, r, hrow, hop, by simp [formS16, aClear, bClear, hf]⟩

theorem formS16Pair_answers {f : CmdFields} {k : KeyWord → KeyWord → Instr} {r : OpRow}
    (hf : formOf f.op = some .s16InAB) (hrow : (k f.a f.b).row = some r) (hop : opField r.pattern = f.op) :
    AnswersByChecks f (formS16Pair f k) :=
  ⟨by simp [opDefined, hf], k f.a f.b, r, hrow, hop, by simp [formS16Pair, aClear, bClear, hf]⟩

theorem formU5_answers {f : CmdFields} {k : Digit → Instr} {r : OpRow} (hf : formOf f.op = some .u5InB)
    (hrow : (k (f.b.extractLsb' 0 5)).row = some r) (hop : opField r.pattern = f.op) :
    AnswersByChecks f (formU5 f k) :=
  ⟨by simp [opDefined, hf], k (f.b.extractLsb' 0 5), r, hrow, hop, by simp [formU5, aClear, bClear, hf]⟩

theorem formU8_answers {f : CmdFields} {k : Char8 → Instr} {r : OpRow} (hf : formOf f.op = some .u8InB)
    (hrow : (k (f.b.extractLsb' 0 8)).row = some r) (hop : opField r.pattern = f.op) :
    AnswersByChecks f (formU8 f k) :=
  ⟨by simp [opDefined, hf], k (f.b.extractLsb' 0 8), r, hrow, hop, by simp [formU8, aClear, bClear, hf]⟩

theorem formNone_answers {f : CmdFields} {i : Instr} {r : OpRow} (hf : formOf f.op = some .none)
    (hrow : i.row = some r) (hop : opField r.pattern = f.op) : AnswersByChecks f (formNone f i) :=
  ⟨by simp [opDefined, hf], i, r, hrow, hop, by simp [formNone, aClear, bClear, hf]⟩

/-- The opcode map, opcode by opcode: a reserved opcode, or one of the 21 with its form (R72, R74). -/
theorem decodeFields_cases (f : CmdFields) :
    (opDefined f = false ∧ decodeFields f = .error (.reservedOpcode f.op)) ∨ AnswersByChecks f (decodeFields f) := by
  obtain ⟨op, a, b⟩ := f
  unfold decodeFields
  split
  case h_22 => exact .inl ⟨by simp_all [opDefined, formOf], rfl⟩
  all_goals rename_i hop; cases hop
  case h_2 | h_4 | h_7 | h_8 | h_9 | h_10 => exact .inr (formS16_answers rfl rfl rfl)
  case h_3 | h_5 => exact .inr (formS16Pair_answers rfl rfl rfl)
  case h_6 => exact .inr (formU5_answers rfl rfl rfl)
  case h_20 => exact .inr (formU8_answers rfl rfl rfl)
  all_goals exact .inr (formNone_answers rfl rfl rfl)

/-- R74, case by case: a word of a reserved opcode, a word that fails a check of R73, or a command in its row. -/
theorem decode_cases (w : CmdWord) :
    (opDefined (fieldsOf w) = false ∧ decode w = .error (.reservedOpcode (opField w))) ∨
    (opDefined (fieldsOf w) = true ∧ (aClear (fieldsOf w) && bClear (fieldsOf w)) = false ∧
      decode w = .error (.mustBeZero (opField w))) ∨
    ((fieldsOf w).wellFormed = true ∧
      ∃ i r, decode w = .ok i ∧ i.row = some r ∧ opField r.pattern = opField w) := by
  rcases decodeFields_cases (fieldsOf w) with hreserved | ⟨hdefined, i, r, hrow, hop, hdec⟩
  · exact .inl hreserved
  · cases hchecks : aClear (fieldsOf w) && bClear (fieldsOf w) with
    | false => exact .inr (.inl ⟨hdefined, rfl, by rw [decode, hdec, hchecks]; rfl⟩)
    | true =>
      refine .inr (.inr ⟨?_, i, r, by rw [decode, hdec, hchecks]; rfl, hrow, hop⟩)
      rw [CmdFields.wellFormed, Bool.and_assoc, hdefined, hchecks]
      rfl

theorem wellFormed_iff_decodes (w : CmdWord) : (fieldsOf w).wellFormed = true ↔ ∃ i, decode w = .ok i := by
  rcases decode_cases w with ⟨hop, hdec⟩ | ⟨hop, hchecks, hdec⟩ | ⟨hwf, i, r, hdec, -, -⟩
  · simp [CmdFields.wellFormed, hop, hdec]
  · rw [CmdFields.wellFormed, Bool.and_assoc, hchecks]
    simp [hdec]
  · simp [hwf, hdec]

/-- A word that fails a check meets no row of the map. -/
theorem hits_eq_false_of_not_wellFormed {w : CmdWord} (h : (fieldsOf w).wellFormed ≠ true) :
    ∀ r ∈ opcodeTable, r.hits w = false :=
  fun _ hr => Bool.eq_false_iff.mpr fun hhit => h ((hits_iff_wellFormed hr w).mp hhit).2

theorem hits_eq_false_of_decode_error {w : CmdWord} {x : DecodeReject} (h : decode w = .error x) :
    ∀ r ∈ opcodeTable, r.hits w = false :=
  hits_eq_false_of_not_wellFormed (by simp [wellFormed_iff_decodes, h])

theorem hits_eq_false_of_reserved {w : CmdWord} (h : opDefined (fieldsOf w) = false) :
    ∀ r ∈ opcodeTable, r.hits w = false :=
  hits_eq_false_of_not_wellFormed (by simp [CmdFields.wellFormed, h])

/-- A command's word meets the command's row and no other. -/
theorem hits_only_own_row {w : CmdWord} {i : Instr} (h : decode w = .ok i) :
    ∃ r, i.row = some r ∧ r ∈ opcodeTable ∧ r.hits w = true ∧
      ∀ r' ∈ opcodeTable, r'.hits w = true → r' = r := by
  rcases decode_cases w with ⟨-, hdec⟩ | ⟨-, -, hdec⟩ | ⟨hwf, j, r, hdec, hrow, hop⟩
  · cases h.symm.trans hdec
  · cases h.symm.trans hdec
  · cases h.symm.trans hdec
    have hr := row_mem hrow
    refine ⟨r, hrow, hr, (hits_iff_wellFormed hr w).mpr ⟨hop.symm, hwf⟩, fun r' hr' hhit => ?_⟩
    have hop' := ((hits_iff_wellFormed hr' w).mp hhit).1
    exact row_eq_of_opcode_eq hr' hr (hop'.symm.trans hop.symm)

/-- Settles O2: the word's decoding decides both sides, through `hits_only_own_row` and
`hits_eq_false_of_decode_error`. -/
theorem everyWordIsOneCommandOrIllegal : Obligations.EveryWordIsOneCommandOrIllegal := by
  refine ⟨fun w => ?_, rfl, fun w s hnone => ?_, fun w hop => hits_eq_false_of_reserved ?_⟩
  · cases hdec : decode w with
    | ok i =>
      obtain ⟨r, hrow⟩ := hits_only_own_row hdec
      exact .inl ⟨i, r, rfl, hrow⟩
    | error x => exact .inr ⟨⟨x, rfl⟩, hits_eq_false_of_decode_error hdec⟩
  · cases hdec : decode w with
    | ok i =>
      obtain ⟨r, -, hr, hhit, -⟩ := hits_only_own_row hdec
      cases (hnone r hr).symm.trans hhit
    | error x => exact accept_error hdec s
  · rcases hop with hop | hop <;> simp [opDefined, fieldsOf, hop, formOf]

/-- Settles O3, from the cases of the decoder. -/
theorem mustBeZeroBitsMakeAWordIllegal : Obligations.MustBeZeroBitsMakeAWordIllegal := by
  refine ⟨fun w hdefined hchecks => ?_, wellFormed_iff_decodes, by decide, by decide⟩
  rcases decode_cases w with ⟨hop, -⟩ | ⟨-, -, hdec⟩ | ⟨hwf, -⟩
  · cases hop.symm.trans hdefined
  · exact hdec
  · simp [CmdFields.wellFormed, Bool.and_assoc, hchecks] at hwf

end Sys2Proof
end

section
/-! The commands of the modular multiplier and inverse engine (`40_modular_arithmetic.md` R107 to R110). Each statement
has three parts, and each part one rule here: the packed word decodes (`decode_packFields`), the command is turned away
outside `IDLE` (`legalOnlyInIdle_of_replyOf`), and in `IDLE` its reply is its own rule (`exec_of_idle`), whose value the
laws of `cmod26`, `euclidGcd`, `minv26` and `mulm26` relate to Lean's integers. -/

namespace Sys2Proof.Machine

/-! ### Rules for the commands legal in `IDLE` only -/

/-- A packed word is decoded by the opcode map on the fields it was packed from (`30_encoding.md` R70). -/
theorem decode_packFields (op : BitVec 8) (a b : BitVec 16) :
    decode (packFields op a b) = decodeFields { op := op, a := a, b := b } :=
  congrArg decodeFields (fieldsOf_pack op a b)

/-- A command whose reply passes the test for `IDLE` is turned away in `RUN` and in `FAULT`, nothing changed (R88). -/
theorem legalOnlyInIdle_of_replyOf {i : Instr} {own : Engine → Reply}
    (h : ∀ e, replyOf i e = whenIdle e (own e)) : legalOnlyInIdle i := by
  intro s
  rw [exec_eq_deliver, h]
  constructor
  · intro hrun
    rw [whenIdle_run hrun]
    rfl
  · intro hfault
    rw [whenIdle_fault hfault]
    rfl

/-- A command that answers `OK` in `IDLE` and writes no register changes the response port only. -/
theorem exec_answerOk_of_idle {i : Instr} {s : State} {v d : BitVec 32} (hf : s.engine.fsm = .idle)
    (h : replyOf i s.engine = whenIdle s.engine (answerOk s.engine v)) (hv : v = d) :
    exec i s = .next { s with rsp := some (respond .ok 0 d) } :=
  hv ▸ exec_of_idle hf h

/-! ### The values answered, in Lean's own integers -/

/-- The field `CMOD` answers is the residue of its signed operand. -/
theorem zext32_cmod26_sext16 (n : KeyWord) : zext32 (cmod26 (sext16 n)) = BitVec.ofInt 32 (n.toInt % 26) := by
  rw [zext32_eq_ofInt (cmod26_bounds _).1, cmod26_eq_emod, sext16_eq_toInt]

/-- The field `GCD` answers is the greatest common divisor of its signed operands. -/
theorem zext32_euclidGcd_sext16 (a b : KeyWord) :
    zext32 (euclidGcd (sext16 a) (sext16 b)) = BitVec.ofNat 32 (Int.gcd a.toInt b.toInt) := by
  rw [euclidGcd_eq, sext16_eq_toInt, sext16_eq_toInt, zext32, Int.toNat_natCast]

/-- The field `MULM` answers is the residue of the exact product of its signed operands. -/
theorem zext32_mulm26_sext16 (a b : KeyWord) :
    zext32 (mulm26 (sext16 a) (sext16 b)) = BitVec.ofInt 32 (a.toInt * b.toInt % 26) := by
  rw [mulm26, zext32_eq_ofInt (cmod26_bounds _).1, cmod26_eq_emod, sext16_eq_toInt, sext16_eq_toInt]

/-! ### The two arms of `MINV` -/

/-- The search finds an inverse of every unit modulo 26. -/
theorem minv26_of_unit {a : Int} (h : Int.gcd (a % 26) 26 = 1) : ∃ x, minv26 a = some x :=
  Option.isSome_iff_exists.mp ((minv26_isSome_iff a).mpr h)

/-- The search finds nothing for a residue that is no unit. -/
theorem minv26_of_not_unit {a : Int} (h : Int.gcd (a % 26) 26 ≠ 1) : minv26 a = none :=
  Option.not_isSome_iff_eq_none.mp fun hsome => h ((minv26_isSome_iff a).mp hsome)

/-- `MINV` in `IDLE`, with an inverse found. -/
theorem exec_minv_of_some {a : KeyWord} {s : State} {x : Int} (hf : s.engine.fsm = .idle)
    (hx : minv26 a.toInt = some x) :
    exec (.minv a) s = .next { s with rsp := some (respond .ok 0 (BitVec.ofInt 32 x)) } := by
  have hx_nonneg : 0 ≤ x := by
    obtain ⟨hx_pos, -, -⟩ := minv26_some hx
    omega
  exact exec_answerOk_of_idle hf (by rw [replyOf_minv, sext16_eq_toInt, hx]) (zext32_eq_ofInt hx_nonneg)

/-- `MINV` in `IDLE`, with no inverse found: `NO_INVERSE` is an answer and changes nothing (`60_exceptions.md` R225). -/
theorem exec_minv_of_none {a : KeyWord} {s : State} (hf : s.engine.fsm = .idle) (hx : minv26 a.toInt = none) :
    exec (.minv a) s = .next { s with rsp := some (respond .noInverse 0 0) } :=
  exec_of_idle (r := raise s.engine .noInverse) hf (by rw [replyOf_minv, sext16_eq_toInt, hx])

/-! ### The four commands -/

/-- Settles O30: the reply of `CMOD`, its value by `zext32_cmod26_sext16`. -/
theorem cmodAnswersTheResidue : Obligations.CmodAnswersTheResidue := by
  refine ⟨fun n => ⟨?decodes, ?legality⟩, fun n s hidle => ?answer⟩
  case decodes => exact decode_packFields 0x10#8 0#16 n
  case legality => exact legalOnlyInIdle_of_replyOf (replyOf_cmod n)
  case answer => exact exec_answerOk_of_idle hidle (replyOf_cmod n s.engine) (zext32_cmod26_sext16 n)

/-- Settles O31: the reply of `GCD`, its value by `zext32_euclidGcd_sext16`. -/
theorem gcdAnswersTheGreatestCommonDivisor : Obligations.GcdAnswersTheGreatestCommonDivisor := by
  refine ⟨fun a b => ⟨?decodes, ?legality⟩, fun a b s hidle => ?answer⟩
  case decodes => exact decode_packFields 0x11#8 a b
  case legality => exact legalOnlyInIdle_of_replyOf (replyOf_gcd a b)
  case answer => exact exec_answerOk_of_idle hidle (replyOf_gcd a b s.engine) (zext32_euclidGcd_sext16 a b)

/-- Settles O32: the search finds an inverse exactly for a unit, and `MINV` has one arm for each outcome. -/
theorem minvAnswersTheInverse : Obligations.MinvAnswersTheInverse := by
  refine ⟨fun a => ⟨?decodes, ?legality⟩, fun a s hidle => ⟨fun hunit => ?inverse, fun hnone => ?noInverse⟩⟩
  case decodes => exact decode_packFields 0x12#8 0#16 a
  case legality => exact legalOnlyInIdle_of_replyOf (replyOf_minv a)
  case inverse =>
    obtain ⟨x, hx⟩ := minv26_of_unit hunit
    obtain ⟨hx_pos, hx_le, hx_inverse⟩ := minv26_some hx
    exact ⟨x, hx_pos, hx_le, hx_inverse, exec_minv_of_some hidle hx⟩
  case noInverse => exact exec_minv_of_none hidle (minv26_of_not_unit hnone)

/-- Settles O33: the reply of `MULM`, its value by `zext32_mulm26_sext16`. -/
theorem mulmAnswersTheProduct : Obligations.MulmAnswersTheProduct := by
  refine ⟨fun a b => ⟨?decodes, ?legality⟩, fun a b s hidle => ?answer⟩
  case decodes => exact decode_packFields 0x13#8 a b
  case legality => exact legalOnlyInIdle_of_replyOf (replyOf_mulm a b)
  case answer => exact exec_answerOk_of_idle hidle (replyOf_mulm a b s.engine) (zext32_mulm26_sext16 a b)

end Sys2Proof.Machine
end

section
/-! The codec's command `DECD` (`41_codec.md` R124, R128). Its operand is the only one of five bits, so the word of the
statement, with its 27 zero bits in one run, is first brought into the three fields of the encoder. The letter is
computed once as a number (`letterOf_toNat`); the sum fits in eight bits, so widening it to `DATA` keeps its value. -/

namespace Sys2Proof.Machine

/-! ### The word of a `u5` operand -/

/-- A word with 27 zero bits above its digit is packed from `A = 0` and `B` the digit zero-extended (R71). -/
theorem append_digit_eq_packFields (op : BitVec 8) (d : Digit) :
    op ++ 0#27 ++ d = packFields op 0#16 (d.setWidth 16) := by
  apply BitVec.eq_of_toNat_eq
  have hd_width : d.toNat % 2 ^ 16 = d.toNat := Nat.mod_eq_of_lt (by omega)
  rw [packFields, BitVec.toNat_append, BitVec.toNat_append, BitVec.toNat_append, BitVec.toNat_append,
    BitVec.toNat_setWidth, hd_width]
  simp [← Nat.shiftLeft_add]

/-- A digit zero-extended into `B` passes the check of form `u5` and is read back. -/
theorem formU5_setWidth (op : BitVec 8) (d : Digit) (k : Digit → Instr) :
    formU5 { op := op, a := 0#16, b := d.setWidth 16 } k = .ok (k d) := by
  simp [formU5]

/-! ### The letter of a digit -/

/-- The letter of every 5-bit value, 26 to 31 reduced (R124). -/
theorem letterOf_toNat (d : Digit) : (letterOf d).toNat = 0x41 + d.toNat % 26 := by
  have htrem : trem (digitValue d) Sys2Proof.Config.modulus = ((d.toNat % 26 : Nat) : Int) :=
    Int.tmod_eq_emod_of_nonneg (Int.natCast_nonneg d.toNat)
  have hlt : d.toNat % 26 < 26 := Nat.mod_lt _ (by decide)
  rw [letterOf, htrem, zext8, Int.toNat_natCast, BitVec.toNat_add, BitVec.toNat_ofNat, BitVec.toNat_ofNat]
  omega

/-- The field `DECD` answers is the code of the letter. -/
theorem setWidth_letterOf (d : Digit) : (letterOf d).setWidth 32 = BitVec.ofNat 32 (0x41 + d.toNat % 26) := by
  rw [← letterOf_toNat, BitVec.ofNat_toNat]

/-! ### The command -/

/-- Settles O34: the reply of `DECD`, its value by `setWidth_letterOf`; `B = 32` is one closed word. -/
theorem decdAnswersTheLetter : Obligations.DecdAnswersTheLetter := by
  refine ⟨fun d => ⟨?decodes, ?legality⟩, ?sixthBit, fun d s hidle => ?answer⟩
  case decodes =>
    calc decode (0x20#8 ++ 0#27 ++ d)
        = decode (packFields 0x20#8 0#16 (d.setWidth 16)) := congrArg decode (append_digit_eq_packFields 0x20#8 d)
      _ = formU5 { op := 0x20#8, a := 0#16, b := d.setWidth 16 } .decd := decode_packFields _ _ _
      _ = .ok (.decd d) := formU5_setWidth _ d .decd
  case legality => exact legalOnlyInIdle_of_replyOf (replyOf_decd d)
  case sixthBit => decide
  case answer => exact exec_answerOk_of_idle hidle (replyOf_decd d s.engine) (setWidth_letterOf d)

end Sys2Proof.Machine
end

section
/-! The key registers and the key validator (`42_key_validator.md` R140 to R151). A command that reads the key is one of
two kinds: a reader, whose own rule stands behind `withKey` (`replyOf_reader`), or an opening, whose own rule stands
behind `withGate` (`replyOf_opening`). What an absent entry or a rejected key does is said once for each kind, and what
an admitted key does once for each command. The values answered rest on the exact determinant of the loaded key
(`det_keyMatrix`), which fits its 32-bit field (`tc32_det_keyMatrix`). -/

namespace Sys2Proof.Machine

/-! ### The determinant of the loaded key, in Lean's own integers (R141 to R143) -/

/-- The determinant is exact on the registers as loaded. -/
theorem det_keyMatrix (e : Engine) :
    det (keyMatrix e) = e.k11.toInt * e.k22.toInt - e.k12.toInt * e.k21.toInt := by
  simp only [det, keyMatrix, sext16_eq_toInt]

/-- The product of two `s16` values. Its lower bound is short of `-2 ^ 30`, which keeps a determinant below `2 ^ 31`. -/
theorem sext16_mul_bounds (a b : KeyWord) :
    -(32768 * 32767) ≤ sext16 a * sext16 b ∧ sext16 a * sext16 b ≤ 32768 * 32768 := by
  obtain ⟨ha, ha'⟩ := sext16_bounds a
  obtain ⟨hb, hb'⟩ := sext16_bounds b
  constructor <;> nlinarith

/-- The determinant of every loadable key is a 32-bit two's-complement value (R143). -/
theorem det_keyMatrix_bounds (e : Engine) : -2 ^ 31 ≤ det (keyMatrix e) ∧ det (keyMatrix e) < 2 ^ 31 := by
  obtain ⟨had, had'⟩ := sext16_mul_bounds e.k11 e.k22
  obtain ⟨hbc, hbc'⟩ := sext16_mul_bounds e.k12 e.k21
  simp only [det, keyMatrix]
  omega

/-- The field that carries the determinant reads back as the determinant. -/
theorem toInt_tc32_det_keyMatrix (e : Engine) : (tc32 (det (keyMatrix e))).toInt = det (keyMatrix e) :=
  tc32_toInt (det_keyMatrix_bounds e).1 (det_keyMatrix_bounds e).2

/-- The field that carries the determinant is its 32-bit two's complement. -/
theorem tc32_det_keyMatrix (e : Engine) : tc32 (det (keyMatrix e)) = BitVec.ofInt 32 (det (keyMatrix e)) :=
  (BitVec.ofInt_toInt).symm.trans (congrArg (BitVec.ofInt 32) (toInt_tc32_det_keyMatrix e))

/-- The gate rejects a key exactly when the residue of its determinant shares a factor with 26 (R142). -/
theorem isInvertible_eq_false_iff (k : Mat2) : isInvertible k = false ↔ Int.gcd (det k % 26) 26 ≠ 1 := by
  rw [← Bool.not_eq_true, isInvertible_iff]

/-! ### The two checks on the key, outcome by outcome (R146, R147) -/

theorem withKey_present {e : Engine} (h : e.kv = 0b1111#4) (r : Reply) : withKey e r = r :=
  if_pos ((keyPresent_iff e).mpr h)

theorem withKey_absent {e : Engine} (h : e.kv ≠ 0b1111#4) (r : Reply) : withKey e r = raise e .missingKey :=
  if_neg (mt (keyPresent_iff e).mp h)

theorem withGate_absent {e : Engine} (h : e.kv ≠ 0b1111#4) (r : Reply) :
    withGate e r = raise (invalidateKey e) .missingKey :=
  if_neg (mt (keyPresent_iff e).mp h)

theorem withGate_present {e : Engine} (h : e.kv = 0b1111#4) (r : Reply) :
    withGate e r = if isInvertible (keyMatrix e) then r else nonInvertible e :=
  if_pos ((keyPresent_iff e).mpr h)

theorem withGate_admitted {e : Engine} (h : keyAdmitted e) (r : Reply) : withGate e r = r := by
  obtain ⟨hpresent, hinv⟩ := h
  rw [withGate_present hpresent, hinv, if_pos rfl]

theorem withGate_rejected {e : Engine} (h : keyInadmissible e) (r : Reply) : withGate e r = nonInvertible e := by
  obtain ⟨hpresent, hinv⟩ := h
  rw [withGate_present hpresent, hinv, if_neg Bool.false_ne_true]

/-- A key that is present is admitted or rejected. -/
theorem keyAdmitted_or_keyInadmissible {e : Engine} (h : e.kv = 0b1111#4) : keyAdmitted e ∨ keyInadmissible e := by
  cases hinv : isInvertible (keyMatrix e) with
  | true => exact .inl ⟨h, hinv⟩
  | false => exact .inr ⟨h, hinv⟩

/-! ### Readers and openings -/

/-- The commands that read the key and leave it loaded begin with the same test (R146). -/
theorem replyOf_reader {i : Instr} (hi : i ∈ [Instr.det, .isinv, .inv11, .inv12, .inv21, .inv22]) (e : Engine) :
    ∃ own, replyOf i e = whenIdle e (withKey e own) := by
  fin_cases hi
  · exact ⟨_, replyOf_det e⟩
  · exact ⟨_, replyOf_isinv e⟩
  · exact ⟨_, replyOf_inv11 e⟩
  · exact ⟨_, replyOf_inv12 e⟩
  · exact ⟨_, replyOf_inv21 e⟩
  · exact ⟨_, replyOf_inv22 e⟩

/-- `STENC` and `STDEC` begin with the same gate (R147). -/
theorem replyOf_opening {i : Instr} (hi : i ∈ [Instr.stenc, .stdec]) (e : Engine) :
    ∃ own, replyOf i e = whenIdle e (withGate e own) := by
  fin_cases hi
  · exact ⟨_, replyOf_stenc e⟩
  · exact ⟨_, replyOf_stdec e⟩

/-- A reader in `IDLE` with an entry absent changes nothing. -/
theorem exec_reader_of_absent {i : Instr} {s : State}
    (hi : i ∈ [Instr.det, .isinv, .inv11, .inv12, .inv21, .inv22]) (hidle : s.engine.fsm = .idle)
    (habsent : s.engine.kv ≠ 0b1111#4) : exec i s = .next { s with rsp := some (respond .missingKey 0 0) } := by
  obtain ⟨own, hreply⟩ := replyOf_reader hi s.engine
  rw [withKey_absent habsent] at hreply
  exact exec_of_idle hidle hreply

/-- An opening in `IDLE` with an entry absent consumes the key. -/
theorem exec_opening_of_absent {i : Instr} {s : State} (hi : i ∈ [Instr.stenc, .stdec])
    (hidle : s.engine.fsm = .idle) (habsent : s.engine.kv ≠ 0b1111#4) :
    exec i s = .next { s with engine := invalidateKey s.engine, rsp := some (respond .missingKey 0 0) } := by
  obtain ⟨own, hreply⟩ := replyOf_opening hi s.engine
  rw [withGate_absent habsent] at hreply
  exact exec_of_idle hidle hreply

/-- An opening in `IDLE` with a rejected key consumes it and answers its determinant (R148). -/
theorem exec_opening_of_rejected {i : Instr} {s : State} (hi : i ∈ [Instr.stenc, .stdec])
    (hidle : s.engine.fsm = .idle) (hrejected : keyInadmissible s.engine) :
    exec i s = .next { s with
      engine := invalidateKey s.engine, rsp := some (nonInvertible s.engine).word } := by
  obtain ⟨own, hreply⟩ := replyOf_opening hi s.engine
  rw [withGate_rejected hrejected] at hreply
  exact exec_of_idle hidle hreply

/-- The response to a rejected key carries the determinant in two's complement, and its residue (R148). -/
theorem nonInvertible_word (e : Engine) :
    (nonInvertible e).word =
      respond .nonInvertibleKey (BitVec.ofInt 8 (det (keyMatrix e) % 26)) (BitVec.ofInt 32 (det (keyMatrix e))) := by
  rw [nonInvertible, zext8_eq_ofInt (cmod26_bounds _).1, cmod26_eq_emod, tc32_det_keyMatrix]

/-- `STENC` in `IDLE` with an admitted key opens its session on the reduced key (`44_cipher_engine.md` R177). -/
theorem exec_stenc_of_admitted {s : State} (hidle : s.engine.fsm = .idle) (hadmitted : keyAdmitted s.engine) :
    exec .stenc s = .next { s with
      engine := openSession .enc (loadMatrix (reduce26 (keyMatrix s.engine)) s.engine),
      rsp := some (respond .ok 0 0) } := by
  have hreply := replyOf_stenc s.engine
  rw [withGate_admitted hadmitted] at hreply
  exact exec_of_idle hidle hreply

/-- `STDEC` in `IDLE` with an admitted key opens its session on the inverse, which exists (R178, R193). -/
theorem exec_stdec_of_admitted {s : State} (hidle : s.engine.fsm = .idle) (hadmitted : keyAdmitted s.engine) :
    ∃ n, invert (keyMatrix s.engine) = some n ∧
      exec .stdec s = .next { s with
        engine := openSession .dec (loadMatrix n s.engine), rsp := some (respond .ok 0 0) } := by
  obtain ⟨n, hn⟩ := invert_of_isInvertible hadmitted.2
  have hreply := replyOf_stdec s.engine
  rw [withGate_admitted hadmitted, hn] at hreply
  exact ⟨n, hn, exec_of_idle hidle hreply⟩

/-- `ISINV` in `IDLE` with every entry present answers the gate's own test (R145). -/
theorem exec_isinv_of_present {s : State} (hidle : s.engine.fsm = .idle) (hpresent : s.engine.kv = 0b1111#4) :
    exec .isinv s = .next { s with
      rsp := some (respond .ok 0 (if isInvertible (keyMatrix s.engine) then 1 else 0)) } := by
  have hreply := replyOf_isinv s.engine
  rw [withKey_present hpresent] at hreply
  exact exec_answerOk_of_idle hidle hreply rfl

/-- `DET` in `IDLE` with every entry present (R144). -/
theorem exec_det_of_present {s : State} (hidle : s.engine.fsm = .idle) (hpresent : s.engine.kv = 0b1111#4) :
    exec .det s = .next { s with rsp := some (respond .ok 0 (tc32 (det (keyMatrix s.engine)))) } := by
  have hreply := replyOf_det s.engine
  rw [withKey_present hpresent] at hreply
  exact exec_answerOk_of_idle hidle hreply rfl

/-! ### The commands of the key validator -/

/-- Settles O36: the readers' `MISSING_KEY`, and the reply of `DET`, whose field reads back as the determinant. -/
theorem detAnswersTheDeterminant : Obligations.DetAnswersTheDeterminant := by
  refine ⟨?decodes, ?legality, fun s hidle => ⟨fun habsent => ?missingKey, fun hpresent => ?answer⟩⟩
  case decodes => decide
  case legality => exact legalOnlyInIdle_of_replyOf replyOf_det
  case missingKey => exact exec_reader_of_absent (by decide) hidle habsent
  case answer =>
    exact ⟨_, exec_det_of_present hidle hpresent, (toInt_tc32_det_keyMatrix s.engine).trans (det_keyMatrix s.engine)⟩

/-- Settles O37: the readers' `MISSING_KEY`, and the reply of `ISINV`, whose test is `isInvertible_iff`. -/
theorem isinvAnswersTheTest : Obligations.IsinvAnswersTheTest := by
  refine ⟨?decodes, ?legality, fun s hidle => ⟨fun habsent => ?missingKey, fun hpresent => ?answer⟩⟩
  case decodes => decide
  case legality => exact legalOnlyInIdle_of_replyOf replyOf_isinv
  case missingKey => exact exec_reader_of_absent (by decide) hidle habsent
  case answer => simp only [exec_isinv_of_present hidle hpresent, isInvertible_iff, det_keyMatrix]

/-- Settles O42: the gate rejects the key for both openings alike, and the response carries the exact determinant. -/
theorem rejectedKeyIsReportedAndConsumed : Obligations.RejectedKeyIsReportedAndConsumed := by
  intro s delta hidle hpresent hdelta hgcd i hi
  rw [← det_keyMatrix] at hdelta
  subst hdelta
  have hrejected : keyInadmissible s.engine := ⟨hpresent, (isInvertible_eq_false_iff _).mpr hgcd⟩
  rw [exec_opening_of_rejected hi hidle hrejected, nonInvertible_word]
  rfl

/-- Settles O44: the key is admitted, and all three say so, or rejected, and `STENC` and `STDEC` do the same. -/
theorem gateIsTheSameForBothDirections : Obligations.GateIsTheSameForBothDirections := by
  intro s e d v hidle hpresent hstenc hstdec hisinv
  rw [exec_isinv_of_present hidle hpresent] at hisinv
  rcases keyAdmitted_or_keyInadmissible hpresent with hadmitted | hrejected
  case inl =>
    obtain ⟨n, -, hexec⟩ := exec_stdec_of_admitted hidle hadmitted
    rw [exec_stenc_of_admitted hidle hadmitted] at hstenc
    rw [hexec] at hstdec
    cases hstenc
    cases hstdec
    cases hisinv
    obtain ⟨-, hinv⟩ := hadmitted
    simp [hinv]
  case inr =>
    rw [exec_opening_of_rejected (by decide) hidle hrejected] at hstenc hstdec
    cases hstenc
    cases hstdec
    cases hisinv
    obtain ⟨-, hinv⟩ := hrejected
    simp [hinv, nonInvertible_word, statusCode]

/-- Settles O35: each `LDK` is its reply, the written entry and valid bit being the reply's own. -/
theorem loadCommandsStoreOneEntry : Obligations.LoadCommandsStoreOneEntry := by
  refine ⟨fun v => ⟨?decodes11, ?decodes12, ?decodes21, ?decodes22, fun i hi => ?legality⟩,
    fun v s hidle => ⟨?stores11, ?stores12, ?stores21, ?stores22⟩⟩
  case decodes11 => exact decode_packFields 0x30#8 0#16 v
  case decodes12 => exact decode_packFields 0x31#8 0#16 v
  case decodes21 => exact decode_packFields 0x32#8 0#16 v
  case decodes22 => exact decode_packFields 0x33#8 0#16 v
  case legality =>
    fin_cases hi
    · exact legalOnlyInIdle_of_replyOf (replyOf_ldk11 v)
    · exact legalOnlyInIdle_of_replyOf (replyOf_ldk12 v)
    · exact legalOnlyInIdle_of_replyOf (replyOf_ldk21 v)
    · exact legalOnlyInIdle_of_replyOf (replyOf_ldk22 v)
  case stores11 => exact exec_of_idle hidle (replyOf_ldk11 v s.engine)
  case stores12 => exact exec_of_idle hidle (replyOf_ldk12 v s.engine)
  case stores21 => exact exec_of_idle hidle (replyOf_ldk21 v s.engine)
  case stores22 => exact exec_of_idle hidle (replyOf_ldk22 v s.engine)

/-- Settles O38: the readers leave the key, the openings consume it. -/
theorem absentEntriesAreMissingKey : Obligations.AbsentEntriesAreMissingKey :=
  fun _ hidle habsent =>
    ⟨fun _ hi => exec_reader_of_absent hi hidle habsent, fun _ hi => exec_opening_of_absent hi hidle habsent⟩

end Sys2Proof.Machine
end

section
/-! The matrix inverter's commands `INV11` to `INV22` (`43_matrix_inverter.md` R160 to R169). The four are one rule,
`invEntry`, at four entries (`replyOf_inv`), so what they answer and when they fault is said once, for any entry. The
inverse search is pinned by `minv26_eq_some`: an inverse modulo 26 is unique in 1 to 25, so the search finds whichever
inverse of the determinant is given. -/

namespace Sys2Proof.Machine

/-! ### The inverse of the determinant is unique (R104) -/

/-- Two inverses of one number are congruent, and in 1 to 25 congruent is equal. -/
theorem inverse_unique {a x y : Int} (hx_pos : 1 ≤ x) (hx_le : x ≤ 25) (hy_pos : 1 ≤ y) (hy_le : y ≤ 25)
    (hx : a * x ≡ 1 [ZMOD 26]) (hy : a * y ≡ 1 [ZMOD 26]) : x = y := by
  have hxy : x ≡ y [ZMOD 26] :=
    calc x = 1 * x := (one_mul x).symm
      _ ≡ a * y * x [ZMOD 26] := hy.symm.mul_right x
      _ = a * x * y := mul_right_comm a y x
      _ ≡ 1 * y [ZMOD 26] := hx.mul_right y
      _ = y := one_mul y
  unfold Int.ModEq at hxy
  omega

/-- A number with an inverse modulo 26 has a residue coprime to 26. -/
theorem gcd_emod_eq_one_of_inverse {a x : Int} (hx : a * x % 26 = 1) : Int.gcd (a % 26) 26 = 1 := by
  have hcoprime : IsCoprime a 26 := ⟨x, -(a * x / 26), by linarith [Int.emod_add_mul_ediv (a * x) 26]⟩
  rw [Int.gcd_emod]
  exact Int.isCoprime_iff_gcd_eq_one.mp hcoprime

/-- The search finds the inverse that there is. -/
theorem minv26_eq_some {a x : Int} (hx_pos : 1 ≤ x) (hx_le : x ≤ 25) (hx : a * x % 26 = 1) : minv26 a = some x := by
  obtain ⟨y, hy⟩ := minv26_of_unit (gcd_emod_eq_one_of_inverse hx)
  obtain ⟨hy_pos, hy_le, hy_inverse⟩ := minv26_some hy
  rw [hy, inverse_unique hx_pos hx_le hy_pos hy_le hx hy_inverse]

/-- The inverter scales the reduced adjugate by the inverse of the determinant (R160). -/
theorem invert_eq_some {k : Mat2} {x : Int} (hx_pos : 1 ≤ x) (hx_le : x ≤ 25) (hx : det k * x % 26 = 1) :
    invert k = some (scale26 x (reduce26 (adjugate k))) := by
  rw [invert, minv26_cmod26, minv26_eq_some hx_pos hx_le hx]

/-- The field that carries an entry of the inverse: reducing the entry before the product changes nothing. -/
theorem zext32_mulm26_cmod26 (v x : Int) : zext32 (mulm26 (cmod26 v) x) = BitVec.ofInt 32 (v * x % 26) := by
  have hreduced : v % 26 * x % 26 = v * x % 26 := (Int.mod_modEq v 26).mul_right x
  rw [mulm26, zext32_eq_ofInt (cmod26_bounds _).1, cmod26_eq_emod, cmod26_eq_emod, hreduced]

/-! ### The rule `invEntry`, outcome by outcome, and its four commands -/

/-- Each `INVij` is `invEntry` at one entry of the inverse. -/
theorem replyOf_inv {i : Instr} (hi : i ∈ [Instr.inv11, .inv12, .inv21, .inv22]) :
    ∃ entry, ∀ e, replyOf i e = whenIdle e (invEntry entry e) := by
  fin_cases hi
  · exact ⟨_, replyOf_inv11⟩
  · exact ⟨_, replyOf_inv12⟩
  · exact ⟨_, replyOf_inv21⟩
  · exact ⟨_, replyOf_inv22⟩

theorem invEntry_of_some {e : Engine} {n : Mat2} (hpresent : e.kv = 0b1111#4) (hn : invert (keyMatrix e) = some n)
    (entry : Mat2 → Int) : invEntry entry e = answerOk e (zext32 (entry n)) := by
  rw [invEntry, withKey_present hpresent, hn]

theorem invEntry_of_none {e : Engine} (hpresent : e.kv = 0b1111#4) (hn : invert (keyMatrix e) = none)
    (entry : Mat2 → Int) : invEntry entry e = takeInconsistency e := by
  rw [invEntry, withKey_present hpresent, hn]

/-- An `INVij` in `IDLE` answers its entry of the inverse, where there is one, and changes nothing. -/
theorem exec_inv_of_some {i : Instr} {entry : Mat2 → Int} {s : State} {n : Mat2} {d : BitVec 32}
    (hi : ∀ e, replyOf i e = whenIdle e (invEntry entry e)) (hidle : s.engine.fsm = .idle)
    (hpresent : s.engine.kv = 0b1111#4) (hn : invert (keyMatrix s.engine) = some n) (hd : zext32 (entry n) = d) :
    exec i s = .next { s with rsp := some (respond .ok 0 d) } :=
  exec_answerOk_of_idle hidle (by rw [hi, invEntry_of_some hpresent hn]) hd

/-- An `INVij` in `IDLE` on a rejected key enters `FAULT`, key and session cleared (R162, R228). -/
theorem exec_inv_of_rejected {i : Instr} {s : State} (hi : i ∈ [Instr.inv11, .inv12, .inv21, .inv22])
    (hidle : s.engine.fsm = .idle) (hrejected : keyInadmissible s.engine) :
    exec i s = .next { s with
      engine := enterFault s.engine, rsp := some (respond .internalInconsistency 0 0) } := by
  obtain ⟨hpresent, hinv⟩ := hrejected
  obtain ⟨entry, hreply⟩ := replyOf_inv hi
  have hfault := hreply s.engine
  rw [invEntry_of_none hpresent (invert_of_not_isInvertible hinv)] at hfault
  exact exec_of_idle hidle hfault

/-- Settles O39: the readers' `MISSING_KEY`, the entries by `invert_eq_some`, and the entry to `FAULT`. -/
theorem inverseEntriesAreAnswered : Obligations.InverseEntriesAreAnswered := by
  refine ⟨?decodes, fun i hi => ?legality, fun s hidle habsent i hi => ?missingKey,
    fun s x hidle hpresent hx_pos hx_le hx => ?entries, fun s hidle hpresent hgcd i hi => ?faults⟩
  case decodes => decide
  case legality =>
    obtain ⟨entry, hreply⟩ := replyOf_inv hi
    exact legalOnlyInIdle_of_replyOf hreply
  case missingKey =>
    have hreader : i ∈ [Instr.det, .isinv, .inv11, .inv12, .inv21, .inv22] :=
      List.mem_cons_of_mem _ (List.mem_cons_of_mem _ hi)
    exact exec_reader_of_absent hreader hidle habsent
  case entries =>
    rw [← det_keyMatrix] at hx
    have hn := invert_eq_some hx_pos hx_le hx
    simp only [← sext16_eq_toInt]
    exact ⟨exec_inv_of_some replyOf_inv11 hidle hpresent hn (zext32_mulm26_cmod26 _ x),
      exec_inv_of_some replyOf_inv12 hidle hpresent hn (zext32_mulm26_cmod26 _ x),
      exec_inv_of_some replyOf_inv21 hidle hpresent hn (zext32_mulm26_cmod26 _ x),
      exec_inv_of_some replyOf_inv22 hidle hpresent hn (zext32_mulm26_cmod26 _ x)⟩
  case faults =>
    rw [← det_keyMatrix] at hgcd
    exact exec_inv_of_rejected hi hidle ⟨hpresent, (isInvertible_eq_false_iff _).mpr hgcd⟩

end Sys2Proof.Machine
end

section
/-! The transitions of `FSM` (`44_cipher_engine.md` R175). Three facts about one command carry the statement: a row of
the table moves `FSM` as it says and sets the mode of its opening (`exec_of_row`), where no row applies the command
leaves `FSM` (`replyOf_fsm_of_no_row`), and in `RUN` only `PUTC` and `FIN` write a register (`exec_engine_of_run`). A
step moves `FSM` by a reset or by an accepted command, so what a step can do is the table again. -/

namespace Sys2Proof.Machine

/-! ### Commands turned away outside the state they are legal in (R183) -/

/-- Every command but `RDSR`, `PUTC` and `FIN` is legal in `IDLE` only. -/
theorem legalOnlyInIdle_of_ne {i : Instr} (hrdsr : i ≠ .rdsr) (hfin : i ≠ .fin) (hputc : ∀ ch, i ≠ .putc ch) :
    legalOnlyInIdle i := by
  cases i with
  | rdsr => exact absurd rfl hrdsr
  | fin => exact absurd rfl hfin
  | putc ch => exact absurd rfl (hputc ch)
  | cmod n => exact legalOnlyInIdle_of_replyOf (replyOf_cmod n)
  | gcd a b => exact legalOnlyInIdle_of_replyOf (replyOf_gcd a b)
  | minv a => exact legalOnlyInIdle_of_replyOf (replyOf_minv a)
  | mulm a b => exact legalOnlyInIdle_of_replyOf (replyOf_mulm a b)
  | decd d => exact legalOnlyInIdle_of_replyOf (replyOf_decd d)
  | ldk11 v => exact legalOnlyInIdle_of_replyOf (replyOf_ldk11 v)
  | ldk12 v => exact legalOnlyInIdle_of_replyOf (replyOf_ldk12 v)
  | ldk21 v => exact legalOnlyInIdle_of_replyOf (replyOf_ldk21 v)
  | ldk22 v => exact legalOnlyInIdle_of_replyOf (replyOf_ldk22 v)
  | det => exact legalOnlyInIdle_of_replyOf replyOf_det
  | isinv => exact legalOnlyInIdle_of_replyOf replyOf_isinv
  | inv11 => exact legalOnlyInIdle_of_replyOf replyOf_inv11
  | inv12 => exact legalOnlyInIdle_of_replyOf replyOf_inv12
  | inv21 => exact legalOnlyInIdle_of_replyOf replyOf_inv21
  | inv22 => exact legalOnlyInIdle_of_replyOf replyOf_inv22
  | stenc => exact legalOnlyInIdle_of_replyOf replyOf_stenc
  | stdec => exact legalOnlyInIdle_of_replyOf replyOf_stdec
  | stprv => exact legalOnlyInIdle_of_replyOf replyOf_stprv

/-- In `RUN` every command but `PUTC` and `FIN` changes no register. -/
theorem exec_engine_of_run {i : Instr} {s t : State} (hexec : exec i s = .next t) (hrun : s.engine.fsm = .run)
    (hfin : i ≠ .fin) (hputc : ∀ ch, i ≠ .putc ch) : t.engine = s.engine := by
  by_cases hrdsr : i = .rdsr
  · subst hrdsr
    rw [exec_eq_deliver, replyOf_rdsr] at hexec
    exact (deliver_next hexec).1
  · obtain ⟨hturned, -⟩ := legalOnlyInIdle_of_ne hrdsr hfin hputc s
    cases (hturned hrun).symm.trans hexec
    rfl

/-! ### A row moves `FSM` -/

/-- Each row of the table, read as what its command does. -/
theorem exec_of_row {i : Instr} {s : State} {f : Fsm} (hrow : fsmMove s.engine i f) :
    ∃ t, exec i s = .next t ∧ t.engine.fsm = f ∧ (f = .run → modeOpened i = some t.engine.mode) := by
  rcases hrow with ⟨hidle, rfl | rfl, hadmitted, rfl⟩ | ⟨hidle, rfl, rfl⟩ | ⟨hidle, hi, hrejected, rfl⟩ |
    ⟨hrun, rfl, rfl⟩
  case inl.inl => exact ⟨_, exec_stenc_of_admitted hidle hadmitted, rfl, fun _ => rfl⟩
  case inl.inr =>
    obtain ⟨n, -, hopens⟩ := exec_stdec_of_admitted hidle hadmitted
    exact ⟨_, hopens, rfl, fun _ => rfl⟩
  case inr.inl => exact ⟨_, exec_of_idle hidle (replyOf_stprv s.engine), rfl, fun _ => rfl⟩
  case inr.inr.inl => exact ⟨_, exec_inv_of_rejected hi hidle hrejected, rfl, nofun⟩
  case inr.inr.inr => exact ⟨_, exec_of_run hrun (replyOf_fin s.engine), rfl, nofun⟩

theorem exec_fsm_of_row {i : Instr} {s t : State} {f : Fsm} (hexec : exec i s = .next t)
    (hrow : fsmMove s.engine i f) : t.engine.fsm = f := by
  obtain ⟨u, hu, hfsm, -⟩ := exec_of_row hrow
  cases hu.symm.trans hexec
  exact hfsm

/-! ### Without a row `FSM` stays -/

/-- A command legal in `IDLE` leaves `FSM` when its own rule does. -/
theorem fsm_of_whenIdle {e : Engine} {r own : Reply} (hr : r = whenIdle e own)
    (hown : e.fsm = .idle → own.engine.fsm = e.fsm) : r.engine.fsm = e.fsm := by
  subst hr
  rcases whenIdle_cases e own with ⟨hidle, heq⟩ | ⟨-, heq⟩ | ⟨-, heq⟩ <;> rw [heq]
  · exact hown hidle
  · rfl
  · rfl

/-- A command legal in `RUN` leaves `FSM` when its own rule does. -/
theorem fsm_of_whenRun {e : Engine} {r own : Reply} (hr : r = whenRun e own)
    (hown : e.fsm = .run → own.engine.fsm = e.fsm) : r.engine.fsm = e.fsm := by
  subst hr
  rcases whenRun_cases e own with ⟨hrun, heq⟩ | ⟨-, heq⟩ | ⟨-, heq⟩ <;> rw [heq]
  · exact hown hrun
  · rfl
  · rfl

theorem withKey_fsm {e : Engine} {own : Reply} (hown : own.engine.fsm = e.fsm) :
    (withKey e own).engine.fsm = e.fsm := by
  rcases withKey_cases e own with ⟨-, heq⟩ | ⟨-, heq⟩ <;> rw [heq]
  · exact hown
  · rfl

/-- The gate leaves `FSM` to a key that it does not admit. -/
theorem withGate_fsm {e : Engine} {own : Reply} (hnot : ¬keyAdmitted e) : (withGate e own).engine.fsm = e.fsm := by
  rcases withGate_cases e own with ⟨hpresent, hinv, -⟩ | ⟨-, -, heq⟩ | ⟨-, heq⟩
  · exact absurd ⟨hpresent, hinv⟩ hnot
  · rw [heq]
    rfl
  · rw [heq]
    rfl

/-- An entry of the inverse leaves `FSM` unless the key is present and not invertible. -/
theorem invEntry_fsm {entry : Mat2 → Int} {e : Engine} (hnot : ¬keyInadmissible e) :
    (invEntry entry e).engine.fsm = e.fsm := by
  rcases invEntry_cases entry e with ⟨n, -, -, heq⟩ | ⟨hpresent, hnone, -⟩ | ⟨-, heq⟩
  · rw [heq]
    rfl
  · have hinv : isInvertible (keyMatrix e) = false := by
      rw [← Bool.not_eq_true, ← invert_isSome_iff, hnone]
      exact Bool.false_ne_true
    exact absurd ⟨hpresent, hinv⟩ hnot
  · rw [heq]
    rfl

theorem encodeStep_fsm (ch : Char8) (e : Engine) : (encodeStep ch e).1.fsm = e.fsm := by
  rcases encodeStep_cases ch e with ⟨-, heq⟩ | ⟨-, -, heq⟩ | ⟨-, -, heq⟩ <;> rw [heq]

/-- "No other transition exists" (R175), command by command: where its row does not apply, or it has none, the command
leaves `FSM`. -/
theorem replyOf_fsm_of_no_row {i : Instr} {e : Engine} (hno : ∀ f, ¬fsmMove e i f) :
    (replyOf i e).engine.fsm = e.fsm := by
  have hopening (hi : i = .stenc ∨ i = .stdec) (hidle : e.fsm = .idle) : ¬keyAdmitted e :=
    fun hadmitted => hno .run (.inl ⟨hidle, hi, hadmitted, rfl⟩)
  have hinv (hi : i ∈ [Instr.inv11, .inv12, .inv21, .inv22]) (hidle : e.fsm = .idle) : ¬keyInadmissible e :=
    fun hrejected => hno .fault (.inr (.inr (.inl ⟨hidle, hi, hrejected, rfl⟩)))
  cases i with
  | rdsr => rfl
  | cmod n => exact fsm_of_whenIdle (replyOf_cmod n e) fun _ => rfl
  | gcd a b => exact fsm_of_whenIdle (replyOf_gcd a b e) fun _ => rfl
  | minv a => exact fsm_of_whenIdle (replyOf_minv a e) fun _ => by cases minv26 (sext16 a) <;> rfl
  | mulm a b => exact fsm_of_whenIdle (replyOf_mulm a b e) fun _ => rfl
  | decd d => exact fsm_of_whenIdle (replyOf_decd d e) fun _ => rfl
  | ldk11 v => exact fsm_of_whenIdle (replyOf_ldk11 v e) fun _ => rfl
  | ldk12 v => exact fsm_of_whenIdle (replyOf_ldk12 v e) fun _ => rfl
  | ldk21 v => exact fsm_of_whenIdle (replyOf_ldk21 v e) fun _ => rfl
  | ldk22 v => exact fsm_of_whenIdle (replyOf_ldk22 v e) fun _ => rfl
  | det => exact fsm_of_whenIdle (replyOf_det e) fun _ => withKey_fsm rfl
  | isinv => exact fsm_of_whenIdle (replyOf_isinv e) fun _ => withKey_fsm rfl
  | inv11 => exact fsm_of_whenIdle (replyOf_inv11 e) fun hidle => invEntry_fsm (hinv (by decide) hidle)
  | inv12 => exact fsm_of_whenIdle (replyOf_inv12 e) fun hidle => invEntry_fsm (hinv (by decide) hidle)
  | inv21 => exact fsm_of_whenIdle (replyOf_inv21 e) fun hidle => invEntry_fsm (hinv (by decide) hidle)
  | inv22 => exact fsm_of_whenIdle (replyOf_inv22 e) fun hidle => invEntry_fsm (hinv (by decide) hidle)
  | stenc => exact fsm_of_whenIdle (replyOf_stenc e) fun hidle => withGate_fsm (hopening (.inl rfl) hidle)
  | stdec => exact fsm_of_whenIdle (replyOf_stdec e) fun hidle => withGate_fsm (hopening (.inr rfl) hidle)
  | stprv => exact fsm_of_whenIdle (replyOf_stprv e) fun hidle => absurd (.inr (.inl ⟨hidle, rfl, rfl⟩)) (hno .run)
  | putc ch => exact fsm_of_whenRun (replyOf_putc ch e) fun _ => encodeStep_fsm ch _
  | fin => exact fsm_of_whenRun (replyOf_fin e) fun hrun => absurd (.inr (.inr (.inr ⟨hrun, rfl, rfl⟩))) (hno .idle)

theorem exec_fsm_of_no_row {i : Instr} {s t : State} (hexec : exec i s = .next t)
    (hno : ∀ f, ¬fsmMove s.engine i f) : t.engine.fsm = s.engine.fsm := by
  rw [exec_eq_deliver] at hexec
  rw [(deliver_next hexec).1]
  exact replyOf_fsm_of_no_row hno

/-! ### The table, for a command and for a step -/

/-- A command that moves `FSM` does so by a row of the table. -/
theorem fsmMove_of_exec {i : Instr} {s t : State} (hexec : exec i s = .next t)
    (hmoves : t.engine.fsm ≠ s.engine.fsm) : fsmMove s.engine i t.engine.fsm := by
  by_contra hnot
  refine hmoves (exec_fsm_of_no_row hexec fun f hrow => hnot ?_)
  rwa [exec_fsm_of_row hexec hrow]

/-- An opening that leads from `IDLE` to `RUN` sets its mode. -/
theorem mode_of_exec_opens {i : Instr} {s t : State} (hexec : exec i s = .next t) (hidle : s.engine.fsm = .idle)
    (hopen : t.engine.fsm = .run) : modeOpened i = some t.engine.mode := by
  have hrow := fsmMove_of_exec hexec (by rw [hidle, hopen]; decide)
  obtain ⟨u, hu, -, hmode⟩ := exec_of_row hrow
  cases hu.symm.trans hexec
  exact hmode hopen

/-- An illegal word leaves the engine as it is (`30_encoding.md` R74). -/
theorem accept_engine_of_error {w : CmdWord} {x : DecodeReject} {s t : State} (hdec : decode w = .error x)
    (haccept : accept w s = .next t) : t.engine = s.engine := by
  rw [accept_error hdec] at haccept
  exact (deliver_next haccept).1

/-- A step that changes a register is a reset, or a ready engine accepting a word (`00_scope.md` R7). -/
theorem step_engine_cases {s t : State} (hstep : step s = .next t) :
    t.engine = s.engine ∨ (t.engine = Engine.reset ∧ ∃ rest, s.host = .reset :: rest) ∨
      (s.rsp = none ∧ ∃ w rest, s.host = .command w :: rest ∧ accept w { s with host := rest } = .next t) := by
  rcases step_cases s with ⟨-, heq⟩ | ⟨m, rest, hhost, heq⟩
  · cases heq.symm.trans hstep
    exact .inl rfl
  · rw [heq] at hstep
    cases m with
    | take =>
      cases hstep
      exact .inl rfl
    | reset =>
      cases hstep
      exact .inr (.inl ⟨rfl, rest, hhost⟩)
    | command w =>
      rcases offerCommand_cases w { s with host := rest } with ⟨hready, hoffer⟩ | ⟨-, hoffer⟩
      · exact .inr (.inr ⟨hready, w, rest, hhost, hoffer.symm.trans hstep⟩)
      · cases hoffer.symm.trans hstep
        exact .inl rfl

/-- Settles O16: a command moves `FSM` by a row or not at all, and a step by a command or a reset. -/
theorem fsmTransitionsAreTheTable : Obligations.FsmTransitionsAreTheTable := by
  refine ⟨fun i s => ?command, fun w x s hdec => ?illegal, fun s rest hhost => ?reset,
    fun s t hstep hmoves => ?step⟩
  case command =>
    have hexec := exec_eq_deliver i s
    exact ⟨_, hexec, fun f hrow => exec_fsm_of_row hexec hrow, exec_fsm_of_no_row hexec,
      mode_of_exec_opens hexec, exec_engine_of_run hexec⟩
  case illegal => exact ⟨_, accept_error hdec s, rfl⟩
  case reset =>
    rw [step, hhost]
    exact ⟨_, rfl, rfl⟩
  case step =>
    rcases step_engine_cases hstep with hsame | ⟨hreset, hhost⟩ | ⟨hready, w, rest, hhost, haccept⟩
    · exact absurd (congrArg Engine.fsm hsame) hmoves
    · exact .inl ⟨congrArg Engine.fsm hreset, hhost⟩
    · cases hdec : decode w with
      | error x => exact absurd (congrArg Engine.fsm (accept_engine_of_error hdec haccept)) hmoves
      | ok i =>
        rw [accept_ok hdec] at haccept
        exact .inr ⟨hready, w, rest, i, hhost, hdec, fsmMove_of_exec (s := { s with host := rest }) haccept hmoves⟩

end Sys2Proof.Machine
end

section
/-! The cipher engine's commands `STENC`, `STDEC`, `STPRV`, `PUTC` and `FIN` (`44_cipher_engine.md` R177 to R182). The
gate of the two keyed openings is already said once for both, so what is left of an opening is the working matrix it
loads. `PUTC` and `FIN` answer a pair in one way, `emit`: its response is computed once as a number, for the mode `PRV`
(`emit_prv_eq`) and for the modes that transform (`emit_cipher_eq`), and `FIN` differs only in that its second digit is
the padding and that the call ends (`endCall_eq`). -/

namespace Sys2Proof.Machine

open Sys2Proof.Config (padDigit)

/-! ### The working matrix that an opening loads (R177, R178) -/

/-- Reducing a factor before the product changes nothing. -/
theorem mulm26_cmod26 (v x : Int) : mulm26 (cmod26 v) x = v * x % 26 := by
  rw [mulm26_eq_emod, cmod26_eq_emod]
  exact (Int.mod_modEq v 26).mul_right x

/-- The register that holds an entry of the reduced key. -/
theorem residue5_cmod26 (v : Int) : residue5 (cmod26 v) = BitVec.ofInt 5 (v % 26) := by
  rw [residue5_eq_ofInt (cmod26_bounds v).1, cmod26_eq_emod]

/-- The register that holds an entry of the inverse. -/
theorem residue5_mulm26_cmod26 (v x : Int) : residue5 (mulm26 (cmod26 v) x) = BitVec.ofInt 5 (v * x % 26) := by
  rw [mulm26_cmod26, residue5_eq_ofInt (Int.emod_nonneg _ (by decide))]

theorem loadMatrix_reduce26_keyMatrix (e : Engine) :
    loadMatrix (reduce26 (keyMatrix e)) e = { e with
      m11 := BitVec.ofInt 5 (e.k11.toInt % 26), m12 := BitVec.ofInt 5 (e.k12.toInt % 26),
      m21 := BitVec.ofInt 5 (e.k21.toInt % 26), m22 := BitVec.ofInt 5 (e.k22.toInt % 26) } := by
  simp only [loadMatrix, reduce26, keyMatrix, residue5_cmod26, sext16_eq_toInt]

theorem loadMatrix_scale26_adjugate (x : Int) (e : Engine) :
    loadMatrix (scale26 x (reduce26 (adjugate (keyMatrix e)))) e = { e with
      m11 := BitVec.ofInt 5 (e.k22.toInt * x % 26), m12 := BitVec.ofInt 5 (-e.k12.toInt * x % 26),
      m21 := BitVec.ofInt 5 (-e.k21.toInt * x % 26), m22 := BitVec.ofInt 5 (e.k11.toInt * x % 26) } := by
  simp only [loadMatrix, scale26, reduce26, adjugate, keyMatrix, residue5_mulm26_cmod26, sext16_eq_toInt]

/-! ### The openings -/

/-- Settles O40: the gate's two rejections, and the session that `STENC` opens on the reduced key. -/
theorem stencOpensAnEncryptSession : Obligations.StencOpensAnEncryptSession := by
  refine ⟨?decodes, ?legality, fun s hidle habsent => ?missingKey,
    fun s delta hidle hpresent hdelta hgcd => ?rejected, fun s hidle hpresent hgcd => ?opens⟩
  case decodes => decide
  case legality => exact legalOnlyInIdle_of_replyOf replyOf_stenc
  case missingKey => exact exec_opening_of_absent (by decide) hidle habsent
  case rejected => exact rejectedKeyIsReportedAndConsumed s delta hidle hpresent hdelta hgcd _ (by decide)
  case opens =>
    rw [← det_keyMatrix] at hgcd
    have hadmitted : keyAdmitted s.engine := ⟨hpresent, (isInvertible_iff _).mpr hgcd⟩
    rw [exec_stenc_of_admitted hidle hadmitted, loadMatrix_reduce26_keyMatrix]
    rfl

/-- Settles O41: the gate's two rejections, and the session that `STDEC` opens on the inverse, which the given inverse
of the determinant pins. -/
theorem stdecOpensADecryptSession : Obligations.StdecOpensADecryptSession := by
  refine ⟨?decodes, ?legality, fun s hidle habsent => ?missingKey,
    fun s delta hidle hpresent hdelta hgcd => ?rejected, fun s x hidle hpresent hx_pos hx_le hx => ?opens⟩
  case decodes => decide
  case legality => exact legalOnlyInIdle_of_replyOf replyOf_stdec
  case missingKey => exact exec_opening_of_absent (by decide) hidle habsent
  case rejected => exact rejectedKeyIsReportedAndConsumed s delta hidle hpresent hdelta hgcd _ (by decide)
  case opens =>
    rw [← det_keyMatrix] at hx
    have hadmitted : keyAdmitted s.engine :=
      ⟨hpresent, (isInvertible_iff _).mpr (gcd_emod_eq_one_of_inverse hx)⟩
    obtain ⟨n, hn, hopens⟩ := exec_stdec_of_admitted hidle hadmitted
    cases hn.symm.trans (invert_eq_some hx_pos hx_le hx)
    rw [hopens, loadMatrix_scale26_adjugate]
    rfl

/-- Settles O45: `STPRV` reads no key, so its own rule is the session it opens. -/
theorem stprvOpensAPreview : Obligations.StprvOpensAPreview := by
  refine ⟨?decodes, ?legality, fun s hidle => ?opens⟩
  case decodes => decide
  case legality => exact legalOnlyInIdle_of_replyOf replyOf_stprv
  case opens => exact exec_of_idle hidle (replyOf_stprv s.engine)

/-! ### The response that carries a pair (`30_encoding.md` R80, R182) -/

/-- The two elements of a pair in `DATA`, as one number. -/
theorem pairResponse_eq (w1 w2 : Char8) :
    pairResponse w1 w2 = respond .ok 1 (BitVec.ofNat 32 (256 * w1.toNat + w2.toNat)) := by
  have hdata : 0#16 ++ w1 ++ w2 = BitVec.ofNat 32 (256 * w1.toNat + w2.toNat) := by
    apply BitVec.eq_of_toNat_eq
    rw [BitVec.toNat_append, BitVec.toNat_append, ← Nat.shiftLeft_add_eq_or_of_lt w2.isLt, BitVec.toNat_ofNat,
      BitVec.toNat_ofNat, Nat.zero_mod, Nat.zero_shiftLeft, Nat.zero_or, Nat.shiftLeft_eq]
    omega
  exact congrArg (respond .ok 1) hdata

/-- In mode `PRV` the pair is answered as its digits. -/
theorem emit_prv_eq {e : Engine} (hprv : e.mode = .prv) (p : DigitPair) :
    emit e p = respond .ok 1 (BitVec.ofNat 32 (256 * p.1.toNat + p.2.toNat)) := by
  have hwidth (d : Digit) : (d.setWidth 8).toNat = d.toNat := by
    rw [BitVec.toNat_setWidth]
    omega
  rw [emit_prv hprv, pairResponse_eq, hwidth, hwidth]

/-- The letter of one row of the working matrix times a pair (R124, R176). -/
theorem letterOf_residue5_cmod26 (a b c d : Nat) :
    (letterOf (residue5 (cmod26 ((a : Int) * c + b * d)))).toNat = 0x41 + (a * c + b * d) % 26 := by
  have hsum : cmod26 ((a : Int) * c + b * d) = ((a * c + b * d) % 26 : Nat) := by
    rw [cmod26_eq_emod]
    push_cast
    rfl
  rw [letterOf_toNat, hsum, residue5, Int.toNat_natCast, BitVec.toNat_ofNat]
  omega

/-- In the modes that transform, the pair is answered as the letters of the working matrix times the pair. -/
theorem emit_cipher_eq {e : Engine} (hmode : e.mode ≠ .prv) (p : DigitPair) :
    emit e p = respond .ok 1 (BitVec.ofNat 32
      (256 * (0x41 + (e.m11.toNat * p.1.toNat + e.m12.toNat * p.2.toNat) % 26) +
        (0x41 + (e.m21.toNat * p.1.toNat + e.m22.toNat * p.2.toNat) % 26))) := by
  rw [emit_cipher hmode, pairResponse_eq]
  simp only [transform, workMatrix, pairVector, digitValue, letterOf_residue5_cmod26]

/-! ### `PUTC` -/

/-- A command whose reply passes the test for `RUN` is turned away in `IDLE` and in `FAULT`, nothing changed (R88). -/
theorem legalOnlyInRun_of_replyOf {i : Instr} {own : Engine → Reply}
    (h : ∀ e, replyOf i e = whenRun e (own e)) : legalOnlyInRun i := by
  intro s
  rw [exec_eq_deliver, h]
  constructor
  · intro hidle
    rw [whenRun_idle hidle]
    rfl
  · intro hfault
    rw [whenRun_fault hfault]
    rfl

/-- A word with 24 zero bits above its character is packed from `A = 0` and `B` the character zero-extended (R71). -/
theorem append_char_eq_packFields (op : BitVec 8) (ch : Char8) :
    op ++ 0#24 ++ ch = packFields op 0#16 (ch.setWidth 16) := by
  apply BitVec.eq_of_toNat_eq
  have hch_width : ch.toNat % 2 ^ 16 = ch.toNat := Nat.mod_eq_of_lt (by omega)
  rw [packFields, BitVec.toNat_append, BitVec.toNat_append, BitVec.toNat_append, BitVec.toNat_append,
    BitVec.toNat_setWidth, hch_width]
  simp [← Nat.shiftLeft_add]

/-- A character zero-extended into `B` passes the check of form `u8` and is read back. -/
theorem formU8_setWidth (op : BitVec 8) (ch : Char8) (k : Char8 → Instr) :
    formU8 { op := op, a := 0#16, b := ch.setWidth 16 } k = .ok (k ch) := by
  simp [formU8]

theorem isLetter_iff (ch : Char8) :
    isLetter ch = true ↔ (0x41 ≤ ch.toNat ∧ ch.toNat ≤ 0x5A) ∨ (0x61 ≤ ch.toNat ∧ ch.toNat ≤ 0x7A) := by
  simp [isLetter]

/-- Letter number `d` of either case is a letter, and `d` is its digit (R120, R121). -/
theorem isLetter_and_digitOf {ch : Char8} {d : Nat} (hd : d ≤ 25)
    (hch : ch.toNat = 0x41 + d ∨ ch.toNat = 0x61 + d) : isLetter ch = true ∧ digitOf ch = BitVec.ofNat 5 d := by
  have hletter : isLetter ch = true := by
    rw [isLetter_iff]
    omega
  refine ⟨hletter, BitVec.eq_of_toNat_eq ?_⟩
  rw [digitOf_toNat hletter, BitVec.toNat_ofNat]
  split <;> omega

theorem encodeStep_of_not_letter {ch : Char8} {e : Engine} (hch : isLetter ch = false) :
    encodeStep ch e = (e, none) := by
  simp [encodeStep, hch]

theorem encodeStep_of_first {ch : Char8} {e : Engine} (hch : isLetter ch = true) (hhalf : e.half = false) :
    encodeStep ch e = ({ e with first := digitOf ch, half := true }, none) := by
  simp [encodeStep, hch, hhalf]

theorem encodeStep_of_second {ch : Char8} {e : Engine} (hch : isLetter ch = true) (hhalf : e.half = true) :
    encodeStep ch e = ({ e with first := 0, half := false }, some (e.first, digitOf ch)) := by
  simp [encodeStep, hch, hhalf]

/-- `PUTC` in `RUN`, by what the encoder makes of the character (R180). -/
theorem exec_putc_of_run {ch : Char8} {s : State} {e : Engine} {p : Option DigitPair} (hrun : s.engine.fsm = .run)
    (hstep : encodeStep ch { s.engine with anychar := true } = (e, p)) :
    exec (.putc ch) s = .next { s with engine := e, rsp := some (emitPair e p) } := by
  have hreply := replyOf_putc ch s.engine
  rw [hstep] at hreply
  exact exec_of_run hrun hreply

/-- `PUTC` of the second letter of a pair answers the pair; `emit` reads the mode and the working matrix only, which the
encoder leaves. -/
theorem exec_putc_of_second {ch : Char8} {s : State} (hrun : s.engine.fsm = .run) (hch : isLetter ch = true)
    (hhalf : s.engine.half = true) :
    exec (.putc ch) s = .next { s with
      engine := { s.engine with anychar := true, half := false, first := 0 },
      rsp := some (emit s.engine (s.engine.first, digitOf ch)) } :=
  exec_putc_of_run hrun (encodeStep_of_second hch hhalf)

/-- Settles O46: the encoder's three cases, and the pair it completes answered by `emit`. -/
theorem putcStoresOrCompletesAPair : Obligations.PutcStoresOrCompletesAPair := by
  refine ⟨fun ch => ⟨?decodes, ?legality⟩, fun ch s hrun hupper hlower => ?stripped,
    fun ch d s hrun hd hch => ?letter⟩
  case decodes =>
    calc decode (0x54#8 ++ 0#24 ++ ch)
        = decode (packFields 0x54#8 0#16 (ch.setWidth 16)) := congrArg decode (append_char_eq_packFields 0x54#8 ch)
      _ = formU8 { op := 0x54#8, a := 0#16, b := ch.setWidth 16 } .putc := decode_packFields _ _ _
      _ = .ok (.putc ch) := formU8_setWidth _ ch .putc
  case legality => exact legalOnlyInRun_of_replyOf (replyOf_putc ch)
  case stripped =>
    have hnot : isLetter ch = false := by
      rw [← Bool.not_eq_true, isLetter_iff]
      exact not_or.mpr ⟨hupper, hlower⟩
    exact exec_putc_of_run hrun (encodeStep_of_not_letter hnot)
  case letter =>
    obtain ⟨hletter, hdigit⟩ := isLetter_and_digitOf hd hch
    have hvalue : (digitOf ch).toNat = d := by
      rw [hdigit, BitVec.toNat_ofNat]
      omega
    refine ⟨fun hfirst => ?first, fun hsecond hprv => ?preview, fun hsecond hmode => ?cipher⟩
    case first =>
      rw [exec_putc_of_run hrun (encodeStep_of_first hletter hfirst), hdigit]
      rfl
    case preview =>
      rw [exec_putc_of_second hrun hletter hsecond, emit_prv_eq hprv, hvalue]
    case cipher =>
      rw [exec_putc_of_second hrun hletter hsecond, emit_cipher_eq hmode, hvalue]

/-! ### `FIN` -/

/-- A call ends at the reset state, the key being left by a `PRV` call only (R190). -/
theorem endCall_eq (e : Engine) :
    endCall e =
      if e.mode = .prv then
        { Engine.reset with k11 := e.k11, k12 := e.k12, k21 := e.k21, k22 := e.k22, kv := e.kv }
      else Engine.reset := by
  cases hmode : e.mode <;> simp [endCall, hmode, clearSession, invalidateKey, Engine.reset]

theorem finResponse_of_empty {e : Engine} (hdec : e.mode = .dec) (hnone : e.anychar = false) :
    finResponse e = respond .emptyInput 0 0 :=
  if_pos ⟨hdec, hnone⟩

/-- After an even number of letters no pair is left to answer. -/
theorem finResponse_of_even {e : Engine} (hsome : ¬(e.mode = .dec ∧ e.anychar = false)) (hhalf : e.half = false) :
    finResponse e = respond .ok 0 0 := by
  rw [finResponse, if_neg hsome, encodeFinish, hhalf]
  rfl

/-- After an odd number of letters the last is paired with the padding digit (`41_codec.md` R123). -/
theorem finResponse_of_odd {e : Engine} (hsome : ¬(e.mode = .dec ∧ e.anychar = false)) (hhalf : e.half = true) :
    finResponse e = emit e (e.first, padDigit) := by
  rw [finResponse, if_neg hsome, encodeFinish, hhalf]
  rfl

/-- Settles O47: `endCall` gives the state after, and `finResponse` the answer, case by case. -/
theorem finEndsTheCall : Obligations.FinEndsTheCall := by
  refine ⟨?decodes, ?legality, fun s e hrun he => ?ends⟩
  case decodes => decide
  case legality => exact legalOnlyInRun_of_replyOf replyOf_fin
  case ends =>
    rw [← endCall_eq] at he
    subst he
    rw [exec_of_run hrun (replyOf_fin s.engine)]
    refine ⟨fun hdec hnone => ?empty, fun hsome hhalf => ?even, fun hprv hhalf => ?preview,
      fun hmode hsome hhalf => ?cipher⟩
    case empty => rw [finResponse_of_empty hdec hnone]
    case even => rw [finResponse_of_even hsome hhalf]
    case preview =>
      have hsome : ¬(s.engine.mode = .dec ∧ s.engine.anychar = false) := by simp [hprv]
      rw [finResponse_of_odd hsome hhalf, emit_prv_eq hprv]
      rfl
    case cipher =>
      rw [finResponse_of_odd hsome hhalf, emit_cipher_eq hmode]
      rfl

end Sys2Proof.Machine
end

section
/-! The system command `RDSR` (`45_system.md` R210, R211). Its answer is the status register (`exec_rdsr`), and that is
a concatenation of seven fields. Both statements are about this layout: one lemma per field finds it at its place, and
`statusRegister_congr` says that five registers fix them all. -/

namespace Sys2Proof.Machine

/-! ### The fields of the status register (R31, R210)

A field is read by dropping the fields below it; what is left of the concatenation ends in that field. -/

theorem statusRegister_fsm (e : Engine) : (statusRegister e).extractLsb' 0 2 = fsmCode e.fsm :=
  BitVec.extractLsb'_append_eq_right

theorem statusRegister_mode (e : Engine) : (statusRegister e).extractLsb' 2 2 = modeCode e.mode := by
  simp only [statusRegister, BitVec.extractLsb'_append_eq_of_le, BitVec.extractLsb'_append_eq_right, Nat.reduceLeDiff,
    Nat.reduceSub]

theorem statusRegister_half (e : Engine) : (statusRegister e).getLsbD 4 = e.half := by
  simp only [statusRegister, BitVec.getLsbD_append, Nat.reduceLT, Nat.reduceSub, if_true, if_false,
    BitVec.getLsbD_ofBool, decide_true, Bool.true_and]

theorem statusRegister_anychar (e : Engine) : (statusRegister e).getLsbD 5 = e.anychar := by
  simp only [statusRegister, BitVec.getLsbD_append, Nat.reduceLT, Nat.reduceSub, if_true, if_false,
    BitVec.getLsbD_ofBool, decide_true, Bool.true_and]

theorem statusRegister_gap (e : Engine) : (statusRegister e).extractLsb' 6 2 = 0#2 := by
  simp only [statusRegister, BitVec.extractLsb'_append_eq_of_le, BitVec.extractLsb'_append_eq_right, Nat.reduceLeDiff,
    Nat.reduceSub]

theorem statusRegister_kv (e : Engine) : (statusRegister e).extractLsb' 8 4 = e.kv := by
  simp only [statusRegister, BitVec.extractLsb'_append_eq_of_le, BitVec.extractLsb'_append_eq_right, Nat.reduceLeDiff,
    Nat.reduceSub]

theorem statusRegister_high (e : Engine) : (statusRegister e).extractLsb' 12 20 = 0#20 := by
  simp only [statusRegister, BitVec.extractLsb'_append_eq_of_le, BitVec.extractLsb'_eq_self, Nat.reduceLeDiff,
    Nat.reduceSub]

/-- No other register has a part in the status register (R31, R32). -/
theorem statusRegister_congr {e e' : Engine} (hkv : e.kv = e'.kv) (hfsm : e.fsm = e'.fsm) (hmode : e.mode = e'.mode)
    (hhalf : e.half = e'.half) (hanychar : e.anychar = e'.anychar) : statusRegister e = statusRegister e' := by
  simp only [statusRegister, hkv, hfsm, hmode, hhalf, hanychar]

/-! ### `RDSR` -/

/-- `RDSR` applies no test to `FSM`, so this is its answer in every state (R210). -/
theorem exec_rdsr (s : State) :
    exec .rdsr s = .next { s with rsp := some (respond .ok 0 (statusRegister s.engine)) } := by
  rw [exec_eq_deliver, replyOf_rdsr]
  rfl

/-- Settles O29: the answer is the status register, and each of its fields is found at its place. -/
theorem rdsrShowsTheStatusRegister : Obligations.RdsrShowsTheStatusRegister := by
  refine ⟨?decodes, fun s => ⟨statusRegister s.engine, exec_rdsr s, ?fields⟩⟩
  case decodes => decide
  case fields =>
    exact ⟨statusRegister_fsm _, statusRegister_mode _, statusRegister_half _, statusRegister_anychar _,
      statusRegister_gap _, statusRegister_kv _, statusRegister_high _⟩

/-- Settles O21: the answer is the status register, and states that agree on its five registers have the same. -/
theorem statusDoesNotShowTheKey : Obligations.StatusDoesNotShowTheKey := by
  intro s s' t t' hkv hfsm hmode hhalf hanychar hexec hexec'
  have hsame : statusRegister s.engine = statusRegister s'.engine :=
    statusRegister_congr hkv hfsm hmode hhalf hanychar
  cases (exec_rdsr s).symm.trans hexec
  cases (exec_rdsr s').symm.trans hexec'
  exact congrArg (fun d => some (respond .ok 0 d)) hsame

end Sys2Proof.Machine
end

section
/-! Commands in a state that does not let them execute (`60_exceptions.md` R227, `44_cipher_engine.md` R183). Every
command but `RDSR` is legal in one state only: `PUTC` and `FIN` in `RUN` (`legalOnlyInRun_of_putc_or_fin`), the others in
`IDLE` (`legalOnlyInIdle_of_ne`). Both kinds are turned away alike in `FAULT`. -/

namespace Sys2Proof.Machine

/-- `PUTC` and `FIN` are legal in `RUN` only. -/
theorem legalOnlyInRun_of_putc_or_fin {i : Instr} (hi : i = .fin ∨ ∃ ch, i = .putc ch) : legalOnlyInRun i := by
  obtain rfl | ⟨ch, rfl⟩ := hi
  · exact legalOnlyInRun_of_replyOf replyOf_fin
  · exact legalOnlyInRun_of_replyOf (replyOf_putc ch)

/-- In `FAULT` every command but `RDSR` gets the sticky status, and changes no register (R228). -/
theorem exec_of_fault {i : Instr} {s : State} (hfault : s.engine.fsm = .fault) (hrdsr : i ≠ .rdsr) :
    exec i s = .next { s with rsp := some (respond .internalInconsistency 0 0) } := by
  by_cases hi : i = .fin ∨ ∃ ch, i = .putc ch
  · exact (legalOnlyInRun_of_putc_or_fin hi s).2 hfault
  · obtain ⟨hfin, hputc⟩ := not_or.mp hi
    exact (legalOnlyInIdle_of_ne hrdsr hfin (not_exists.mp hputc) s).2 hfault

/-- Settles O14: the state in which each command is legal says how it is turned away in the others. -/
theorem commandsOutOfPlaceChangeNothing : Obligations.CommandsOutOfPlaceChangeNothing := by
  refine fun i s => ⟨fun hfault hrdsr => ?fault, fun hrun hrdsr hfin hputc => ?run, fun hidle hi => ?idle⟩
  case fault => exact exec_of_fault hfault hrdsr
  case run => exact (legalOnlyInIdle_of_ne hrdsr hfin hputc s).1 hrun
  case idle => exact (legalOnlyInRun_of_putc_or_fin hi s).1 hidle

end Sys2Proof.Machine
end

section
/-! Reset (`70_reset_and_hazards.md` R251, R252). Applying `rst` reads nothing of the state but the host's moves still to
come, so the step is the same whatever was loaded, open, outstanding or recorded. -/

namespace Sys2Proof.Machine

/-- The host's `rst` is applied in every state, and an outstanding response does not delay it. -/
theorem step_of_host_reset {s : State} {rest : List HostMove} (hhost : s.host = .reset :: rest) :
    step s = .next { engine := Engine.reset, rsp := none, host := rest } := by
  rw [step, hhost]
  rfl

/-- No valid bit, no session and no half-filled buffer is left for `RDSR` to show, and the codes of `IDLE` and `ENC`
are 0. -/
theorem statusRegister_reset : statusRegister Engine.reset = 0 := by decide

/-- Settles O11: the step by `step_of_host_reset`, and the answer of `RDSR` by its value at reset,
`statusRegister_reset`. -/
theorem resetPutsEveryRegisterToZero : Obligations.ResetPutsEveryRegisterToZero := by
  refine ⟨fun s rest hhost => ?step, ?engine, ?response, ?status⟩
  case step => exact step_of_host_reset hhost
  case engine => rfl
  case response => rfl
  case status =>
    rw [exec_rdsr, stateReset_engine, statusRegister_reset]
    rfl

end Sys2Proof.Machine
end

section
/-! Encoding and decoding are inverse (`30_encoding.md` R70 to R72). `decode_encode` reads each command's own word;
the converse is said once for each operand form: a word that passes the form's test for must-be-zero bits is packed from
the opcode and the operands that the form reads, so nothing of it is lost. -/

namespace Sys2Proof

open Machine

/-! ### From a command to its word and back -/

theorem decode_encode (i : Instr) : decode (encode i) = .ok i := by
  cases i with
  | decd d => exact (decode_packFields 0x20#8 0#16 (d.setWidth 16)).trans (formU5_setWidth _ d .decd)
  | putc ch => exact (decode_packFields 0x54#8 0#16 (ch.setWidth 16)).trans (formU8_setWidth _ ch .putc)
  | gcd a b => exact decode_packFields 0x11#8 a b
  | mulm a b => exact decode_packFields 0x13#8 a b
  | cmod n => exact decode_packFields 0x10#8 0#16 n
  | minv a => exact decode_packFields 0x12#8 0#16 a
  | ldk11 v => exact decode_packFields 0x30#8 0#16 v
  | ldk12 v => exact decode_packFields 0x31#8 0#16 v
  | ldk21 v => exact decode_packFields 0x32#8 0#16 v
  | ldk22 v => exact decode_packFields 0x33#8 0#16 v
  | rdsr => exact decode_packFields 0x01#8 0#16 0#16
  | det => exact decode_packFields 0x34#8 0#16 0#16
  | isinv => exact decode_packFields 0x35#8 0#16 0#16
  | inv11 => exact decode_packFields 0x40#8 0#16 0#16
  | inv12 => exact decode_packFields 0x41#8 0#16 0#16
  | inv21 => exact decode_packFields 0x42#8 0#16 0#16
  | inv22 => exact decode_packFields 0x43#8 0#16 0#16
  | stenc => exact decode_packFields 0x50#8 0#16 0#16
  | stdec => exact decode_packFields 0x51#8 0#16 0#16
  | stprv => exact decode_packFields 0x52#8 0#16 0#16
  | fin => exact decode_packFields 0x55#8 0#16 0#16

/-! ### From a word to its command and back, form by form -/

/-- The fields `f` are those of the word of every command that `d` can answer. -/
def AnswersOwnWord (f : CmdFields) (d : Decoded) : Prop :=
  ∀ i, d = .ok i → encode i = packFields f.op f.a f.b

theorem formS16_answersOwnWord {f : CmdFields} {k : KeyWord → Instr}
    (hk : ∀ v, encode (k v) = packFields f.op 0#16 v) : AnswersOwnWord f (formS16 f k) := by
  intro i h
  obtain ⟨ha, rfl⟩ := formS16_ok h
  rw [hk, ha]

theorem formS16Pair_answersOwnWord {f : CmdFields} {k : KeyWord → KeyWord → Instr}
    (hk : ∀ u v, encode (k u v) = packFields f.op u v) : AnswersOwnWord f (formS16Pair f k) := by
  intro i h
  obtain rfl := formS16Pair_ok h
  exact hk f.a f.b

theorem formU5_answersOwnWord {f : CmdFields} {k : Digit → Instr}
    (hk : ∀ d, encode (k d) = packFields f.op 0#16 (d.setWidth 16)) : AnswersOwnWord f (formU5 f k) := by
  intro i h
  obtain ⟨ha, hhigh, rfl⟩ := formU5_ok h
  rw [hk, ha, u5_of_high hhigh]

theorem formU8_answersOwnWord {f : CmdFields} {k : Char8 → Instr}
    (hk : ∀ c, encode (k c) = packFields f.op 0#16 (c.setWidth 16)) : AnswersOwnWord f (formU8 f k) := by
  intro i h
  obtain ⟨ha, hhigh, rfl⟩ := formU8_ok h
  rw [hk, ha, u8_of_high hhigh]

theorem formNone_answersOwnWord {f : CmdFields} {k : Instr} (hk : encode k = packFields f.op 0#16 0#16) :
    AnswersOwnWord f (formNone f k) := by
  intro i h
  obtain ⟨ha, hb, rfl⟩ := formNone_ok h
  rw [hk, ha, hb]

/-- Each opcode of the map is read by the form that its encoding is written in (R71, R72). -/
theorem decodeFields_answersOwnWord (f : CmdFields) : AnswersOwnWord f (decodeFields f) := by
  obtain ⟨op, a, b⟩ := f
  unfold decodeFields
  split
  case h_22 => exact fun _ h => nomatch h
  all_goals rename_i hop; cases hop
  case h_2 | h_4 | h_7 | h_8 | h_9 | h_10 => exact formS16_answersOwnWord fun _ => rfl
  case h_3 | h_5 => exact formS16Pair_answersOwnWord fun _ _ => rfl
  case h_6 => exact formU5_answersOwnWord fun _ => rfl
  case h_20 => exact formU8_answersOwnWord fun _ => rfl
  all_goals exact formNone_answersOwnWord rfl

theorem encode_of_decode {w : CmdWord} {i : Instr} (h : decode w = .ok i) : encode i = w :=
  (decodeFields_answersOwnWord (fieldsOf w) i h).trans (packFields_fields w)

/-- Settles O1: `decode_encode`, and `encode_of_decode` by the operand forms. -/
theorem decodeAndEncodeAgree : Obligations.DecodeAndEncodeAgree :=
  ⟨decode_encode, fun _ _ => encode_of_decode⟩

/-! ### Sample words and lines -/

theorem decode_of_encode {i : Instr} {w : CmdWord} (h : encode i = w) : decode w = .ok i :=
  h ▸ decode_encode i

/-- Settles O4: each word is the encoding of its command, and an encoding decodes to its command. -/
theorem sampleWordsDecode : Obligations.SampleWordsDecode := by
  refine ⟨decode_of_encode ?_, decode_of_encode ?_, decode_of_encode ?_, decode_of_encode ?_, decode_of_encode ?_,
    decode_of_encode ?_, decode_of_encode ?_⟩ <;> decide

/-- Settles O5: the assembler evaluated on each line. -/
theorem sampleLinesAssemble : Obligations.SampleLinesAssemble := by
  unfold Obligations.SampleLinesAssemble
  decide

end Sys2Proof
end

section
/-! What a command can do to the registers. `EngineMove` lists it once, command by command, each case with the condition
under which it happens, and `engineMove_of_exec` says that every command does one of them. The statements on what writes
the key, what writes the session and what only reads are read off from the list. -/

namespace Sys2Proof.Machine

/-! ### The list of effects -/

/-- A command `i` on the registers `e` can leave the registers that are the last argument. -/
inductive EngineMove (e : Engine) : Instr → Engine → Prop where
  /-- nothing is written: the reading commands, a command turned away, a reader's `MISSING_KEY` -/
  | stays (i : Instr) : EngineMove e i e
  | loads11 (v : KeyWord) (hidle : e.fsm = .idle) :
      EngineMove e (.ldk11 v) { e with k11 := v, kv := setValid .e11 e.kv }
  | loads12 (v : KeyWord) (hidle : e.fsm = .idle) :
      EngineMove e (.ldk12 v) { e with k12 := v, kv := setValid .e12 e.kv }
  | loads21 (v : KeyWord) (hidle : e.fsm = .idle) :
      EngineMove e (.ldk21 v) { e with k21 := v, kv := setValid .e21 e.kv }
  | loads22 (v : KeyWord) (hidle : e.fsm = .idle) :
      EngineMove e (.ldk22 v) { e with k22 := v, kv := setValid .e22 e.kv }
  /-- `STENC` or `STDEC` on a key that is absent or not invertible (R147) -/
  | consumes {i : Instr} (hi : i = .stenc ∨ i = .stdec) (hidle : e.fsm = .idle) : EngineMove e i (invalidateKey e)
  | opensEnc (hidle : e.fsm = .idle) (hadmitted : keyAdmitted e) :
      EngineMove e .stenc (openSession .enc (loadMatrix (reduce26 (keyMatrix e)) e))
  | opensDec {n : Mat2} (hidle : e.fsm = .idle) (hadmitted : keyAdmitted e) (hn : invert (keyMatrix e) = some n) :
      EngineMove e .stdec (openSession .dec (loadMatrix n e))
  | opensPrv (hidle : e.fsm = .idle) : EngineMove e .stprv (openSession .prv e)
  /-- an `INVij` on a key that is not invertible (R162) -/
  | faults {i : Instr} (hi : i ∈ [Instr.inv11, .inv12, .inv21, .inv22]) (hidle : e.fsm = .idle) :
      EngineMove e i (enterFault e)
  | encodes (ch : Char8) (hrun : e.fsm = .run) :
      EngineMove e (.putc ch) (encodeStep ch { e with anychar := true }).1
  | ends (hrun : e.fsm = .run) : EngineMove e .fin (endCall e)

/-- A command legal in `IDLE` only does what its own rule does there, or nothing. -/
theorem engineMove_of_whenIdle {i : Instr} {e : Engine} {r own : Reply} (hr : r = whenIdle e own)
    (hown : e.fsm = .idle → EngineMove e i own.engine) : EngineMove e i r.engine := by
  subst hr
  rcases whenIdle_cases e own with ⟨hidle, heq⟩ | ⟨-, heq⟩ | ⟨-, heq⟩ <;> rw [heq]
  · exact hown hidle
  · exact .stays i
  · exact .stays i

/-- A command legal in `RUN` only does what its own rule does there, or nothing. -/
theorem engineMove_of_whenRun {i : Instr} {e : Engine} {r own : Reply} (hr : r = whenRun e own)
    (hown : e.fsm = .run → EngineMove e i own.engine) : EngineMove e i r.engine := by
  subst hr
  rcases whenRun_cases e own with ⟨hrun, heq⟩ | ⟨-, heq⟩ | ⟨-, heq⟩ <;> rw [heq]
  · exact hown hrun
  · exact .stays i
  · exact .stays i

/-- A command that writes no register when the key is present writes none when it is absent. -/
theorem engineMove_of_withKey {i : Instr} {e : Engine} {own : Reply} (hown : own.engine = e) :
    EngineMove e i (withKey e own).engine := by
  rcases withKey_cases e own with ⟨-, heq⟩ | ⟨-, heq⟩ <;> rw [heq]
  · rw [hown]
    exact .stays i
  · exact .stays i

/-- An opening passes the gate or consumes the key. -/
theorem engineMove_of_withGate {i : Instr} {e : Engine} {own : Reply} (hi : i = .stenc ∨ i = .stdec)
    (hidle : e.fsm = .idle) (hown : keyAdmitted e → EngineMove e i own.engine) :
    EngineMove e i (withGate e own).engine := by
  rcases withGate_cases e own with ⟨hpresent, hinv, heq⟩ | ⟨-, -, heq⟩ | ⟨-, heq⟩ <;> rw [heq]
  · exact hown ⟨hpresent, hinv⟩
  · exact .consumes hi hidle
  · exact .consumes hi hidle

theorem engineMove_of_invEntry {i : Instr} {e : Engine} (hi : i ∈ [Instr.inv11, .inv12, .inv21, .inv22])
    (hidle : e.fsm = .idle) (entry : Mat2 → Int) : EngineMove e i (invEntry entry e).engine := by
  rcases invEntry_cases entry e with ⟨n, -, -, heq⟩ | ⟨-, -, heq⟩ | ⟨-, heq⟩ <;> rw [heq]
  · exact .stays i
  · exact .faults hi hidle
  · exact .stays i

theorem engineMove_of_minv {a : KeyWord} {e : Engine} (o : Option Int) :
    EngineMove e (.minv a) (match o with
      | some x => answerOk e (zext32 x)
      | none => raise e .noInverse).engine := by
  cases o <;> exact .stays _

/-- The own rule of `STDEC` behind the gate, which lets only keys pass that the inverter answers (R193). -/
theorem engineMove_of_stdec {e : Engine} (hidle : e.fsm = .idle) (hadmitted : keyAdmitted e) :
    EngineMove e .stdec (match invert (keyMatrix e) with
      | none => takeInconsistency e
      | some n => answerOk (openSession .dec (loadMatrix n e)) 0).engine := by
  obtain ⟨n, hn⟩ := invert_of_isInvertible hadmitted.2
  rw [hn]
  exact .opensDec hidle hadmitted hn

theorem engineMove_replyOf (i : Instr) (e : Engine) : EngineMove e i (replyOf i e).engine := by
  cases i with
  | rdsr => exact .stays .rdsr
  | cmod n => exact engineMove_of_whenIdle (replyOf_cmod n e) fun _ => .stays _
  | gcd a b => exact engineMove_of_whenIdle (replyOf_gcd a b e) fun _ => .stays _
  | minv a => exact engineMove_of_whenIdle (replyOf_minv a e) fun _ => engineMove_of_minv _
  | mulm a b => exact engineMove_of_whenIdle (replyOf_mulm a b e) fun _ => .stays _
  | decd d => exact engineMove_of_whenIdle (replyOf_decd d e) fun _ => .stays _
  | ldk11 v => exact engineMove_of_whenIdle (replyOf_ldk11 v e) (.loads11 v)
  | ldk12 v => exact engineMove_of_whenIdle (replyOf_ldk12 v e) (.loads12 v)
  | ldk21 v => exact engineMove_of_whenIdle (replyOf_ldk21 v e) (.loads21 v)
  | ldk22 v => exact engineMove_of_whenIdle (replyOf_ldk22 v e) (.loads22 v)
  | det => exact engineMove_of_whenIdle (replyOf_det e) fun _ => engineMove_of_withKey rfl
  | isinv => exact engineMove_of_whenIdle (replyOf_isinv e) fun _ => engineMove_of_withKey rfl
  | inv11 => exact engineMove_of_whenIdle (replyOf_inv11 e) fun h => engineMove_of_invEntry (by decide) h _
  | inv12 => exact engineMove_of_whenIdle (replyOf_inv12 e) fun h => engineMove_of_invEntry (by decide) h _
  | inv21 => exact engineMove_of_whenIdle (replyOf_inv21 e) fun h => engineMove_of_invEntry (by decide) h _
  | inv22 => exact engineMove_of_whenIdle (replyOf_inv22 e) fun h => engineMove_of_invEntry (by decide) h _
  | stenc =>
    exact engineMove_of_whenIdle (replyOf_stenc e) fun h => engineMove_of_withGate (.inl rfl) h (.opensEnc h)
  | stdec =>
    exact engineMove_of_whenIdle (replyOf_stdec e) fun h =>
      engineMove_of_withGate (.inr rfl) h (engineMove_of_stdec h)
  | stprv => exact engineMove_of_whenIdle (replyOf_stprv e) .opensPrv
  | putc ch => exact engineMove_of_whenRun (replyOf_putc ch e) (.encodes ch)
  | fin => exact engineMove_of_whenRun (replyOf_fin e) .ends

/-- Every command has one of the listed effects. -/
theorem engineMove_of_exec {i : Instr} {s t : State} (hexec : exec i s = .next t) :
    EngineMove s.engine i t.engine := by
  rw [exec_eq_deliver] at hexec
  rw [(deliver_next hexec).1]
  exact engineMove_replyOf i s.engine

/-! ### What writes the key, and what the session -/

/-- The encoder writes the pair buffer only (`41_codec.md` R122). -/
theorem encodeStep_frame (ch : Char8) (e : Engine) :
    ∃ first half, (encodeStep ch e).1 = { e with first := first, half := half } := by
  rcases encodeStep_cases ch e with ⟨-, heq⟩ | ⟨-, -, heq⟩ | ⟨-, -, heq⟩ <;> rw [heq]
  · exact ⟨e.first, e.half, rfl⟩
  · exact ⟨_, _, rfl⟩
  · exact ⟨_, _, rfl⟩

/-- Settles O17: of the listed effects only the loads, a consumed key, the entry to `FAULT` and the end of a call
write the key. -/
theorem onlyTheseCommandsWriteTheKey : Obligations.OnlyTheseCommandsWriteTheKey := by
  intro i s t hexec
  have hmove := engineMove_of_exec hexec
  generalize t.engine = e' at hmove ⊢
  cases hmove with
  | stays => exact .inl ⟨rfl, rfl, rfl, rfl, rfl⟩
  | loads11 v hidle => exact .inr (.inl ⟨hidle, v, .inl rfl⟩)
  | loads12 v hidle => exact .inr (.inl ⟨hidle, v, .inr (.inl rfl)⟩)
  | loads21 v hidle => exact .inr (.inl ⟨hidle, v, .inr (.inr (.inl rfl))⟩)
  | loads22 v hidle => exact .inr (.inl ⟨hidle, v, .inr (.inr (.inr rfl))⟩)
  | consumes hi hidle => exact .inr (.inr ⟨⟨rfl, rfl, rfl, rfl, rfl⟩, .inl ⟨hi, hidle, hidle⟩⟩)
  | opensEnc | opensDec | opensPrv => exact .inl ⟨rfl, rfl, rfl, rfl, rfl⟩
  | faults hi hidle => exact .inr (.inr ⟨⟨rfl, rfl, rfl, rfl, rfl⟩, .inr (.inr ⟨hidle, rfl⟩)⟩)
  | encodes ch hrun =>
    obtain ⟨first, half, hstep⟩ := encodeStep_frame ch { s.engine with anychar := true }
    rw [hstep]
    exact .inl ⟨rfl, rfl, rfl, rfl, rfl⟩
  | ends hrun =>
    by_cases hprv : s.engine.mode = .prv
    · simp [hprv]
    · simp [hprv, hrun]

/-- Settles O18: the openings write the registers of the session they open, `PUTC` the pair buffer, and the entry to
`FAULT` and the end of a call clear them all. -/
theorem onlyTheseCommandsWriteTheSession : Obligations.OnlyTheseCommandsWriteTheSession := by
  intro i s t hexec
  have hmove := engineMove_of_exec hexec
  generalize t.engine = e' at hmove ⊢
  cases hmove with
  | stays | loads11 | loads12 | loads21 | loads22 | consumes =>
    exact ⟨.inl ⟨rfl, rfl, rfl, rfl⟩, .inl rfl, .inl ⟨rfl, rfl, rfl⟩⟩
  | opensEnc hidle =>
    exact ⟨.inr (.inl ⟨.inl rfl, hidle, rfl⟩), .inr (.inl ⟨.inl rfl, hidle, rfl⟩), .inr (.inl ⟨.inl rfl, hidle, rfl⟩)⟩
  | opensDec hidle =>
    exact ⟨.inr (.inl ⟨.inr rfl, hidle, rfl⟩), .inr (.inl ⟨.inr (.inl rfl), hidle, rfl⟩),
      .inr (.inl ⟨.inr (.inl rfl), hidle, rfl⟩)⟩
  | opensPrv hidle =>
    exact ⟨.inl ⟨rfl, rfl, rfl, rfl⟩, .inr (.inl ⟨.inr (.inr rfl), hidle, rfl⟩),
      .inr (.inl ⟨.inr (.inr rfl), hidle, rfl⟩)⟩
  | faults hi hidle =>
    exact ⟨.inr (.inr (.inr ⟨hidle, rfl⟩)), .inr (.inr (.inr ⟨hidle, rfl⟩)), .inr (.inr (.inr ⟨hidle, rfl⟩))⟩
  | encodes ch hrun =>
    obtain ⟨first, half, hstep⟩ := encodeStep_frame ch { s.engine with anychar := true }
    rw [hstep]
    exact ⟨.inl ⟨rfl, rfl, rfl, rfl⟩, .inl rfl, .inr (.inr (.inl ⟨.inr ⟨ch, rfl⟩, hrun⟩))⟩
  | ends hrun =>
    exact ⟨.inr (.inr (.inl ⟨rfl, hrun⟩)), .inr (.inr (.inl ⟨rfl, hrun⟩)), .inr (.inr (.inl ⟨.inl rfl, hrun⟩))⟩

/-! ### What only reads, and loading twice (`20_memory.md` R56) -/

/-- A command without an effect of its own on the list writes nothing. -/
theorem engine_of_exec_reading {i : Instr} {s t : State} (hexec : exec i s = .next t)
    (hi : i ∈ [Instr.rdsr, .det, .isinv] ∨ (∃ n, i = .cmod n) ∨ (∃ a b, i = .gcd a b) ∨ (∃ a, i = .minv a) ∨
      (∃ a b, i = .mulm a b) ∨ ∃ d, i = .decd d) : t.engine = s.engine := by
  have hmove := engineMove_of_exec hexec
  generalize t.engine = e' at hmove ⊢
  cases hmove with
  | stays => rfl
  | consumes hopening => rcases hopening with rfl | rfl <;> simp at hi
  | faults hinv => fin_cases hinv <;> simp at hi
  | loads11 | loads12 | loads21 | loads22 | opensEnc | opensDec | opensPrv | encodes | ends => simp at hi

theorem engine_of_exec_inv {i : Instr} {s t : State} (hexec : exec i s = .next t)
    (hi : i ∈ [Instr.inv11, .inv12, .inv21, .inv22]) :
    t.engine = s.engine ∨ (s.engine.fsm = .idle ∧ t.engine.fsm = .fault) := by
  have hmove := engineMove_of_exec hexec
  generalize t.engine = e' at hmove ⊢
  cases hmove with
  | stays => exact .inl rfl
  | faults _ hidle => exact .inr ⟨hidle, rfl⟩
  | consumes hopening => rcases hopening with rfl | rfl <;> simp at hi
  | loads11 | loads12 | loads21 | loads22 | opensEnc | opensDec | opensPrv | encodes | ends => simp at hi

/-- A command legal in `IDLE` that answers `OK` there, and whose write leaves `FSM` and is the same when repeated. -/
theorem exec_twice_of_whenIdle {i : Instr} {s t : State} {write : Engine → Engine}
    (hreply : ∀ e, replyOf i e = whenIdle e (answerOk (write e) 0)) (hfsm : ∀ e, (write e).fsm = e.fsm)
    (htwice : ∀ e, write (write e) = write e) (hexec : exec i s = .next t) : exec i t = .next t := by
  obtain ⟨hrun, hfault⟩ := legalOnlyInIdle_of_replyOf hreply s
  cases hs : s.engine.fsm with
  | idle =>
    cases (exec_of_idle hs (hreply s.engine)).symm.trans hexec
    rw [exec_of_idle ((hfsm s.engine).trans hs) (hreply _)]
    simp only [answerOk_engine, htwice]
  | run =>
    cases (hrun hs).symm.trans hexec
    exact (legalOnlyInIdle_of_replyOf hreply _).1 hs
  | fault =>
    cases (hfault hs).symm.trans hexec
    exact (legalOnlyInIdle_of_replyOf hreply _).2 hs

/-- A valid bit that is set stays set. -/
theorem setValid_setValid (x : KeyEntry) (kv : BitVec 4) : setValid x (setValid x kv) = setValid x kv := by
  rw [setValid, setValid, BitVec.or_assoc, BitVec.or_self]

theorem exec_ldk_twice {i : Instr} {v : KeyWord} {s t : State}
    (hi : i ∈ [Instr.ldk11 v, .ldk12 v, .ldk21 v, .ldk22 v]) (hexec : exec i s = .next t) : exec i t = .next t := by
  fin_cases hi
  · exact exec_twice_of_whenIdle (replyOf_ldk11 v) (fun _ => rfl) (fun e => by simp [setValid_setValid]) hexec
  · exact exec_twice_of_whenIdle (replyOf_ldk12 v) (fun _ => rfl) (fun e => by simp [setValid_setValid]) hexec
  · exact exec_twice_of_whenIdle (replyOf_ldk21 v) (fun _ => rfl) (fun e => by simp [setValid_setValid]) hexec
  · exact exec_twice_of_whenIdle (replyOf_ldk22 v) (fun _ => rfl) (fun e => by simp [setValid_setValid]) hexec

/-- Settles O19: the readings and the `INVij` by their effects, and a second load by `exec_ldk_twice`. -/
theorem readingCommandsChangeNothing : Obligations.ReadingCommandsChangeNothing :=
  ⟨fun _ _ _ => engine_of_exec_reading, fun _ _ _ => engine_of_exec_inv, fun _ _ _ _ => exec_ldk_twice⟩

end Sys2Proof.Machine
end

section
/-! The invariants (`10_state.md` R35). Each effect of a command (`EngineMove`) keeps them, and a step changes the
registers by a command or a reset (`step_engine_cases`). Outside `RUN` the session registers are known, so what is left
to show of most effects is one invariant each; that of an opening is that the working matrix reads back as the reduced
key or its inverse (`workMatrix_loadMatrix`). -/

namespace Sys2Proof.Machine

/-! ### The working matrix of an opening -/

/-- Entries that the 5-bit registers of the working matrix hold exactly (R27). -/
def Mat2.IsReduced (m : Mat2) : Prop :=
  (0 ≤ m.a ∧ m.a ≤ 25) ∧ (0 ≤ m.b ∧ m.b ≤ 25) ∧ (0 ≤ m.c ∧ m.c ≤ 25) ∧ (0 ≤ m.d ∧ m.d ≤ 25)

theorem isReduced_reduce26 (k : Mat2) : (reduce26 k).IsReduced :=
  ⟨cmod26_bounds _, cmod26_bounds _, cmod26_bounds _, cmod26_bounds _⟩

theorem isReduced_of_invert {k n : Mat2} (hn : invert k = some n) : n.IsReduced := by
  obtain ⟨x, -, rfl⟩ := invert_some hn
  exact ⟨cmod26_bounds _, cmod26_bounds _, cmod26_bounds _, cmod26_bounds _⟩

theorem workMatrix_loadMatrix {m : Mat2} (hm : m.IsReduced) (e : Engine) : workMatrix (loadMatrix m e) = m := by
  obtain ⟨⟨ha, ha'⟩, ⟨hb, hb'⟩, ⟨hc, hc'⟩, ⟨hd, hd'⟩⟩ := hm
  simp only [workMatrix, loadMatrix_m11, loadMatrix_m12, loadMatrix_m21, loadMatrix_m22,
    digitValue_residue5 ha ha', digitValue_residue5 hb hb', digitValue_residue5 hc hc', digitValue_residue5 hd hd']

theorem residue5_toNat_le {v : Int} (h : 0 ≤ v ∧ v ≤ 25) : (residue5 v).toNat ≤ 25 := by
  rw [residue5, BitVec.toNat_ofNat]
  omega

/-! ### The invariants, state by state of `FSM` -/

/-- In `IDLE` the invariants say that the session registers are 0 and that an absent entry is. -/
theorem engineInv_of_idle {e : Engine} (hfsm : e.fsm = .idle) (hclear : idleClear e) (habsent : absentKeyZero e) :
    EngineInv e := by
  obtain ⟨-, hhalf, -, hfirst, h11, h12, h21, h22⟩ := hclear (by simp [hfsm])
  exact
    { idle_clear := hclear
      fault_keyless := fun h => by simp [hfsm] at h
      buffer_coherent := ⟨fun _ => hfirst, fun h => by simp [hhalf] at h⟩
      residues_in_range := by simp [residuesInRange, h11, h12, h21, h22, hfirst]
      session_keyed := fun h => by simp [hfsm] at h
      absent_key_zero := habsent }

/-- In a session the other four invariants remain. -/
theorem engineInv_of_run {e : Engine} (hfsm : e.fsm = .run) (hbuffer : bufferCoherent e)
    (hrange : residuesInRange e) (hkeyed : sessionKeyed e) (habsent : absentKeyZero e) : EngineInv e where
  idle_clear := fun h => absurd hfsm h
  fault_keyless := fun h => by simp [hfsm] at h
  buffer_coherent := hbuffer
  residues_in_range := hrange
  session_keyed := hkeyed
  absent_key_zero := habsent

/-! ### Each effect keeps them -/

theorem engineInv_reset : EngineInv Engine.reset :=
  engineInv_of_idle rfl (by simp [idleClear]) (by simp [absentKeyZero])

/-- Settles O12: reset leaves `IDLE` with every register 0. -/
theorem resetMeetsTheInvariants : Obligations.ResetMeetsTheInvariants := engineInv_reset

/-- The registers after each of the four loads of the value `v` (R140). -/
def loadedWith (v : KeyWord) (e : Engine) : List Engine :=
  [{ e with k11 := v, kv := setValid .e11 e.kv }, { e with k12 := v, kv := setValid .e12 e.kv },
    { e with k21 := v, kv := setValid .e21 e.kv }, { e with k22 := v, kv := setValid .e22 e.kv }]

/-- The entry written is present, the others are as they were. -/
theorem absentKeyZero_load {e e' : Engine} {v : KeyWord} (h : absentKeyZero e)
    (he' : e' ∈ loadedWith v e) : absentKeyZero e' := by
  fin_cases he' <;> simp_all [absentKeyZero, setValid, validBit]

/-- A load leaves `IDLE` and the session registers. -/
theorem engineInv_load {e e' : Engine} {v : KeyWord} (h : EngineInv e) (hidle : e.fsm = .idle)
    (he' : e' ∈ loadedWith v e) : EngineInv e' := by
  have habsent := absentKeyZero_load h.absent_key_zero he'
  fin_cases he' <;> exact engineInv_of_idle hidle h.idle_clear habsent

theorem engineInv_invalidateKey {e : Engine} (h : EngineInv e) (hidle : e.fsm = .idle) :
    EngineInv (invalidateKey e) :=
  engineInv_of_idle hidle h.idle_clear (by simp [absentKeyZero])

theorem engineInv_enterFault (e : Engine) : EngineInv (enterFault e) where
  idle_clear := by simp [idleClear]
  fault_keyless := by simp [faultKeyless]
  buffer_coherent := by simp [bufferCoherent]
  residues_in_range := by simp [residuesInRange]
  session_keyed := fun h => by simp at h
  absent_key_zero := by simp [absentKeyZero]

/-- A session opened with the pair buffer empty: what is left is its matrix. -/
theorem engineInv_openSession {e : Engine} {mode : Mode} (habsent : absentKeyZero e)
    (h11 : e.m11.toNat ≤ 25) (h12 : e.m12.toNat ≤ 25) (h21 : e.m21.toNat ≤ 25) (h22 : e.m22.toNat ≤ 25)
    (hkeyed : sessionKeyed (openSession mode e)) : EngineInv (openSession mode e) :=
  engineInv_of_run rfl (by simp [bufferCoherent]) ⟨h11, h12, h21, h22, Nat.zero_le 25⟩ hkeyed habsent

/-- An `ENC` or `DEC` session opened on a reduced matrix. -/
theorem engineInv_openSession_loadMatrix {e : Engine} {mode : Mode} {m : Mat2} (habsent : absentKeyZero e)
    (hm : m.IsReduced) (hkeyed : sessionKeyed (openSession mode (loadMatrix m e))) :
    EngineInv (openSession mode (loadMatrix m e)) := by
  obtain ⟨ha, hb, hc, hd⟩ := hm
  exact engineInv_openSession habsent (residue5_toNat_le ha) (residue5_toNat_le hb) (residue5_toNat_le hc)
    (residue5_toNat_le hd) hkeyed

theorem engineInv_opensEnc {e : Engine} (h : EngineInv e) (hadmitted : keyAdmitted e) :
    EngineInv (openSession .enc (loadMatrix (reduce26 (keyMatrix e)) e)) :=
  have hm := isReduced_reduce26 (keyMatrix e)
  engineInv_openSession_loadMatrix h.absent_key_zero hm
    fun _ => ⟨hadmitted.1, hadmitted.2, workMatrix_loadMatrix hm e⟩

theorem engineInv_opensDec {e : Engine} {n : Mat2} (h : EngineInv e) (hadmitted : keyAdmitted e)
    (hn : invert (keyMatrix e) = some n) : EngineInv (openSession .dec (loadMatrix n e)) :=
  have hm := isReduced_of_invert hn
  engineInv_openSession_loadMatrix h.absent_key_zero hm
    fun _ => ⟨hadmitted.1, hadmitted.2, hn.trans (congrArg some (workMatrix_loadMatrix hm e).symm)⟩

/-- `STPRV` writes no working matrix; it is 0 because it was so in `IDLE` (R27). -/
theorem engineInv_opensPrv {e : Engine} (h : EngineInv e) (hidle : e.fsm = .idle) :
    EngineInv (openSession .prv e) := by
  obtain ⟨h11, h12, h21, h22, -⟩ := h.residues_in_range
  obtain ⟨-, -, -, -, hzero⟩ := h.idle_clear (by simp [hidle])
  exact engineInv_openSession h.absent_key_zero h11 h12 h21 h22 fun _ => hzero

/-- A character changes the pair buffer only, which stays coherent and holds a digit (R28, R29). -/
theorem engineInv_encodeStep {e : Engine} (h : EngineInv e) (hrun : e.fsm = .run) (ch : Char8) :
    EngineInv (encodeStep ch { e with anychar := true }).1 := by
  obtain ⟨hempty, -⟩ := h.buffer_coherent
  obtain ⟨h11, h12, h21, h22, hfirst⟩ := h.residues_in_range
  rcases encodeStep_cases ch { e with anychar := true } with ⟨-, heq⟩ | ⟨hletter, -, heq⟩ | ⟨-, -, heq⟩ <;> rw [heq]
  · exact engineInv_of_run hrun ⟨hempty, fun _ => rfl⟩ h.residues_in_range h.session_keyed h.absent_key_zero
  · exact engineInv_of_run hrun ⟨nofun, fun _ => rfl⟩ ⟨h11, h12, h21, h22, digitOf_le hletter⟩ h.session_keyed
      h.absent_key_zero
  · exact engineInv_of_run hrun ⟨fun _ => rfl, nofun⟩ ⟨h11, h12, h21, h22, Nat.zero_le 25⟩ h.session_keyed
      h.absent_key_zero

/-- The key that a `PRV` call leaves is the one that was loaded; any other call leaves none (R190). -/
theorem engineInv_endCall {e : Engine} (h : EngineInv e) : EngineInv (endCall e) := by
  rw [endCall_eq]
  split
  · exact engineInv_of_idle rfl (by simp [idleClear]) h.absent_key_zero
  · exact engineInv_reset

theorem engineInv_of_engineMove {e e' : Engine} {i : Instr} (h : EngineInv e) (hmove : EngineMove e i e') :
    EngineInv e' := by
  cases hmove with
  | stays => exact h
  | loads11 v hidle => exact engineInv_load h hidle (v := v) (by simp [loadedWith])
  | loads12 v hidle => exact engineInv_load h hidle (v := v) (by simp [loadedWith])
  | loads21 v hidle => exact engineInv_load h hidle (v := v) (by simp [loadedWith])
  | loads22 v hidle => exact engineInv_load h hidle (v := v) (by simp [loadedWith])
  | consumes _ hidle => exact engineInv_invalidateKey h hidle
  | opensEnc _ hadmitted => exact engineInv_opensEnc h hadmitted
  | opensDec _ hadmitted hn => exact engineInv_opensDec h hadmitted hn
  | opensPrv hidle => exact engineInv_opensPrv h hidle
  | faults => exact engineInv_enterFault e
  | encodes ch hrun => exact engineInv_encodeStep h hrun ch
  | ends => exact engineInv_endCall h

/-! ### Every step keeps them -/

/-- What an accepted word does to the registers: nothing, or the effect of the command it decodes to. -/
theorem accept_engine_cases {w : CmdWord} {s t : State} (haccept : accept w s = .next t) :
    t.engine = s.engine ∨ ∃ i, decode w = .ok i ∧ EngineMove s.engine i t.engine := by
  cases hdec : decode w with
  | error x => exact .inl (accept_engine_of_error hdec haccept)
  | ok i =>
    rw [accept_ok hdec] at haccept
    exact .inr ⟨i, rfl, engineMove_of_exec haccept⟩

/-- Settles O13: a step is a reset, or leaves the registers to a command, whose effect keeps the invariants. -/
theorem everyStepKeepsTheInvariants : Obligations.EveryStepKeepsTheInvariants := by
  intro s t hinv hstep
  rcases step_engine_cases hstep with hsame | ⟨hreset, -⟩ | ⟨-, w, rest, -, haccept⟩
  · rw [hsame]
    exact hinv
  · rw [hreset]
    exact engineInv_reset
  · rcases accept_engine_cases haccept with hsame | ⟨i, -, hmove⟩
    · rw [hsame]
      exact hinv
    · exact engineInv_of_engineMove hinv hmove

end Sys2Proof.Machine
end

section
/-! Commands, steps and ports (`20_memory.md` R51 to R59, `00_scope.md` R7). A command and a word are answered by a
delivered reply (`exec_eq_deliver`, `accept_eq_deliver`); what a step can do is `step_cases`, and what it can do to the
registers `step_engine_cases`. -/

namespace Sys2Proof.Machine

/-! ### The step of a presented word -/

theorem offerCommand_of_ready {s : State} (h : s.rsp = none) (w : CmdWord) : offerCommand w s = accept w s := by
  rcases offerCommand_cases w s with ⟨-, heq⟩ | ⟨hbusy, -⟩
  · exact heq
  · exact absurd h hbusy

/-- A ready engine accepts the word that the host presents. -/
theorem step_of_host_command {s : State} {w : CmdWord} {rest : List HostMove} (hhost : s.host = .command w :: rest)
    (hready : s.rsp = none) : step s = accept w { s with host := rest } := by
  rw [step, hhost]
  exact offerCommand_of_ready (s := { s with host := rest }) hready w

theorem step_of_host_take {s : State} {rest : List HostMove} (hhost : s.host = .take :: rest) :
    step s = .next { s with rsp := none, host := rest } := by
  rw [step, hhost]
  rfl

/-- Settles O6: the word is accepted, and an accepted word that decodes runs its command. -/
theorem stepRunsTheDecodedCommand : Obligations.StepRunsTheDecodedCommand := by
  intro s w rest i hhost hready hdec
  rw [step_of_host_command hhost hready, accept_ok hdec]

/-- The command of a table word is that of the command word it holds. -/
theorem decode_of_decodeTableWord {nbits w : Nat} {i : Instr} (h : decodeTableWord nbits w = some i) :
    decode (wordOfBits nbits w) = .ok i := by
  unfold decodeTableWord at h
  cases hdec : decode (wordOfBits nbits w) with
  | ok j =>
    rw [hdec] at h
    exact congrArg _ (Option.some.inj h)
  | error x =>
    rw [hdec] at h
    cases h

/-- Settles O7: `withFetchWord` presents the word to an engine whose response is taken. -/
theorem fetchedWordRunsNext : Obligations.FetchedWordRunsNext := by
  intro s nbits w i hdec
  exact stepRunsTheDecodedCommand (s.withFetchWord nbits w) (wordOfBits nbits w) s.host i rfl rfl
    (decode_of_decodeTableWord hdec)

/-! ### Every command is answered -/

theorem deliver_answers (s : State) (r : Reply) :
    ∃ e w, deliver s r = .next { engine := e, rsp := some w, host := s.host } :=
  ⟨r.engine, r.word, deliver_eq s r⟩

theorem offerCommand_next (w : CmdWord) (s : State) : ∃ t, offerCommand w s = .next t := by
  rcases offerCommand_cases w s with ⟨-, heq⟩ | ⟨-, heq⟩
  · rw [heq, accept_eq_deliver]
    exact ⟨_, deliver_eq _ _⟩
  · exact ⟨s, heq⟩

theorem step_next (s : State) : ∃ t, step s = .next t := by
  rcases step_cases s with ⟨-, heq⟩ | ⟨m, rest, -, heq⟩ <;> rw [heq]
  · exact ⟨s, rfl⟩
  · cases m with
    | command w => exact offerCommand_next w _
    | take => exact ⟨_, rfl⟩
    | reset => exact ⟨_, rfl⟩

/-- Settles O8: a command and a word are delivered replies, and every move of the host gives a next state. -/
theorem everyCommandIsAnswered : Obligations.EveryCommandIsAnswered := by
  refine ⟨fun i s => ?command, fun w s => ?word, step_next⟩
  case command =>
    rw [exec_eq_deliver]
    exact deliver_answers s _
  case word =>
    rw [accept_eq_deliver]
    exact deliver_answers s _

/-! ### One command is outstanding at a time -/

theorem cmdReady_iff (s : State) : cmdReady s = true ↔ s.rsp = none := by
  simp [cmdReady, rspValid]

theorem cmdReady_eq_false_iff (s : State) : cmdReady s = false ↔ s.rsp ≠ none := by
  rw [← Bool.not_eq_true, cmdReady_iff]

/-- What a step does to the engine and the response port: nothing, one of the three moves of the host, a word being
accepted by a ready engine only. -/
theorem step_port_cases {s t : State} (hstep : step s = .next t) :
    (t.engine = s.engine ∧ t.rsp = s.rsp) ∨
      (t.engine = s.engine ∧ t.rsp = none ∧ ∃ rest, s.host = .take :: rest) ∨
      (t.engine = Engine.reset ∧ t.rsp = none ∧ ∃ rest, s.host = .reset :: rest) ∨
      (s.rsp = none ∧ ∃ w rest, s.host = .command w :: rest ∧ accept w { s with host := rest } = .next t) := by
  rcases step_cases s with ⟨-, heq⟩ | ⟨m, rest, hhost, heq⟩ <;> rw [heq] at hstep
  · cases hstep
    exact .inl ⟨rfl, rfl⟩
  · cases m with
    | take =>
      cases hstep
      exact .inr (.inl ⟨rfl, rfl, rest, hhost⟩)
    | reset =>
      cases hstep
      exact .inr (.inr (.inl ⟨rfl, rfl, rest, hhost⟩))
    | command w =>
      rcases offerCommand_cases w { s with host := rest } with ⟨hready, hoffer⟩ | ⟨-, hoffer⟩
      · exact .inr (.inr (.inr ⟨hready, w, rest, hhost, hoffer.symm.trans hstep⟩))
      · cases hoffer.symm.trans hstep
        exact .inl ⟨rfl, rfl⟩

/-- Settles O9: each clause asks which of the cases of `step_port_cases` are left. -/
theorem oneCommandOutstanding : Obligations.OneCommandOutstanding := by
  refine fun s t hstep => ⟨fun hready hbusy => ?accepts, fun hbusy => ?waits, fun hchanged => ?changes,
    fun rest hhost => ?takes⟩
  case accepts =>
    rw [cmdReady_iff] at hready
    rw [cmdReady_eq_false_iff] at hbusy
    rcases step_port_cases hstep with ⟨-, hrsp⟩ | ⟨-, hrsp, -⟩ | ⟨-, hrsp, -⟩ | ⟨-, haccepted⟩
    · exact absurd (hrsp.trans hready) hbusy
    · exact absurd hrsp hbusy
    · exact absurd hrsp hbusy
    · exact haccepted
  case waits =>
    rw [cmdReady_eq_false_iff] at hbusy
    rcases step_port_cases hstep with hsame | htake | hreset | ⟨hready, -⟩
    · exact .inl hsame
    · exact .inr (.inl htake)
    · exact .inr (.inr hreset)
    · exact absurd hready hbusy
  case changes =>
    rcases step_port_cases hstep with ⟨hsame, -⟩ | ⟨hsame, -⟩ | ⟨hreset, -, hhost⟩ | haccepted
    · exact absurd hsame hchanged
    · exact absurd hsame hchanged
    · exact .inl ⟨hreset, hhost⟩
    · exact .inr haccepted
  case takes =>
    cases (step_of_host_take hhost).symm.trans hstep
    rfl

/-! ### A run through the ports -/

theorem run_succ_of_next {M : Host.Core} {s t : M.State} (h : M.step s = .next t) (k : Nat) :
    M.run (k + 1) s = M.run k t := by
  rw [Host.Core.run, h]

theorem core_run_succ {s t : State} (h : step s = .next t) (k : Nat) :
    Host.Core.run core (k + 1) s = Host.Core.run core k t :=
  run_succ_of_next (M := core) (s := s) (t := t) h k

/-- Two steps present a word and take its response. -/
theorem core_run_word (k : Nat) (w : CmdWord) (rest : List HostMove) {s : State} (hready : s.rsp = none) :
    Host.Core.run core (k + 2) { s with host := .command w :: .take :: rest } =
      Host.Core.run core k { engine := (wordReply w s.engine).engine, rsp := none, host := rest } := by
  have hword : step { s with host := .command w :: .take :: rest } =
      .next { engine := (wordReply w s.engine).engine, rsp := some (wordReply w s.engine).word,
              host := .take :: rest } := by
    rw [step_of_host_command (s := { s with host := .command w :: .take :: rest }) rfl hready, accept_eq_deliver]
    rfl
  exact (core_run_succ hword (k + 1)).trans (core_run_succ (step_of_host_take rfl) k)

/-- Settles O10, by induction on the words: each pair of steps does what the run of one word does. -/
theorem portRunIsTheRunOfTheWords : Obligations.PortRunIsTheRunOfTheWords := by
  intro ws
  induction ws with
  | nil =>
    intro s _ hhost
    cases s
    cases hhost
    rfl
  | cons w ws ih =>
    intro s hready hhost
    rw [List.length_cons, List.flatMap_cons, runWords_cons]
    exact (core_run_word _ w _ hready).trans
      (ih { s with engine := (wordReply w s.engine).engine, rsp := none } rfl hhost)

/-! ### `FAULT` -/

/-- Every effect but `stays` begins in `IDLE` or in `RUN`. -/
theorem engine_eq_of_engineMove_of_fault {e e' : Engine} {i : Instr} (hfault : e.fsm = .fault)
    (hmove : EngineMove e i e') : e' = e := by
  cases hmove with
  | stays => rfl
  | loads11 _ hidle | loads12 _ hidle | loads21 _ hidle | loads22 _ hidle => cases hfault.symm.trans hidle
  | consumes _ hidle | faults _ hidle => cases hfault.symm.trans hidle
  | opensEnc hidle | opensDec hidle | opensPrv hidle => cases hfault.symm.trans hidle
  | encodes _ hrun | ends hrun => cases hfault.symm.trans hrun

theorem accept_engine_of_fault {w : CmdWord} {s t : State} (hfault : s.engine.fsm = .fault)
    (haccept : accept w s = .next t) : t.engine = s.engine := by
  rcases accept_engine_cases haccept with hsame | ⟨i, -, hmove⟩
  · exact hsame
  · exact engine_eq_of_engineMove_of_fault hfault hmove

/-- Settles O15: no effect of a command begins in `FAULT`, so of the steps only a reset changes a register. -/
theorem faultIsLeftByResetOnly : Obligations.FaultIsLeftByResetOnly := by
  refine fun s hfault => ⟨exec_rdsr s, fun w x hdec => accept_error hdec s, fun i hi => exec_of_fault hfault hi,
    fun t hstep => ?_⟩
  rcases step_engine_cases hstep with hsame | hreset | ⟨-, w, rest, -, haccept⟩
  · exact .inl hsame
  · exact .inr hreset
  · exact .inl (accept_engine_of_fault (s := { s with host := rest }) hfault haccept)

end Sys2Proof.Machine
end

section
/-! The bits of a response (`30_encoding.md` R75 to R80). `AnswersWithin` lists what a command can answer: a status
alone, the report of a rejected key, an `OK` within the bits that its rule defines, or an output pair. Every command
answers one of these (`answersWithin_replyOf`), by the bound on the value it computes. -/

namespace Sys2Proof.Machine

/-! ### The list of answers -/

/-- A command `i` on the registers `e` can answer the word that is the last argument. -/
inductive AnswersWithin (e : Engine) : Instr → RspWord → Prop where
  /-- an error that carries nothing but its status (R77) -/
  | status (i : Instr) {st : Status} (hok : st ≠ .ok) (hrejected : st ≠ .nonInvertibleKey) :
      AnswersWithin e i (respond st 0 0)
  /-- the report of a rejected key (`42_key_validator.md` R148) -/
  | rejectedKey {i : Instr} (hi : i = .stenc ∨ i = .stdec) : AnswersWithin e i (nonInvertible e).word
  /-- `OK` with bits of `DATA` that the command's rule defines, none of them where `OUTV` could have been set -/
  | value (i : Instr) {data : BitVec 32} (hbits : data &&& ~~~dataBits i = 0)
      (hnoPair : (i = .fin ∨ ∃ ch, i = .putc ch) → data = 0) : AnswersWithin e i (respond .ok 0 data)
  /-- an output pair (R80) -/
  | pair {i : Instr} (hi : i = .fin ∨ ∃ ch, i = .putc ch) (w1 w2 : Char8) : AnswersWithin e i (pairResponse w1 w2)

theorem answersWithin_missingKey (e : Engine) (i : Instr) : AnswersWithin e i (respond .missingKey 0 0) :=
  .status i (by decide) (by decide)

theorem answersWithin_badState (e : Engine) (i : Instr) : AnswersWithin e i (respond .badState 0 0) :=
  .status i (by decide) (by decide)

theorem answersWithin_inconsistency (e : Engine) (i : Instr) :
    AnswersWithin e i (respond .internalInconsistency 0 0) :=
  .status i (by decide) (by decide)

theorem answersWithin_zero (e : Engine) (i : Instr) : AnswersWithin e i (respond .ok 0 0) :=
  .value i (BitVec.zero_and) fun _ => rfl

/-! ### The tests before a command's own rule -/

theorem answersWithin_of_whenIdle {i : Instr} {e : Engine} {r own : Reply} (hr : r = whenIdle e own)
    (hown : AnswersWithin e i own.word) : AnswersWithin e i r.word := by
  subst hr
  rcases whenIdle_cases e own with ⟨-, heq⟩ | ⟨-, heq⟩ | ⟨-, heq⟩ <;> rw [heq]
  · exact hown
  · exact answersWithin_badState e i
  · exact answersWithin_inconsistency e i

theorem answersWithin_of_whenRun {i : Instr} {e : Engine} {r own : Reply} (hr : r = whenRun e own)
    (hown : AnswersWithin e i own.word) : AnswersWithin e i r.word := by
  subst hr
  rcases whenRun_cases e own with ⟨-, heq⟩ | ⟨-, heq⟩ | ⟨-, heq⟩ <;> rw [heq]
  · exact hown
  · exact answersWithin_badState e i
  · exact answersWithin_inconsistency e i

theorem answersWithin_of_withKey {i : Instr} {e : Engine} {own : Reply} (hown : AnswersWithin e i own.word) :
    AnswersWithin e i (withKey e own).word := by
  rcases withKey_cases e own with ⟨-, heq⟩ | ⟨-, heq⟩ <;> rw [heq]
  · exact hown
  · exact answersWithin_missingKey e i

theorem answersWithin_of_withGate {i : Instr} {e : Engine} {own : Reply} (hi : i = .stenc ∨ i = .stdec)
    (hown : AnswersWithin e i own.word) : AnswersWithin e i (withGate e own).word := by
  rcases withGate_cases e own with ⟨-, -, heq⟩ | ⟨-, -, heq⟩ | ⟨-, heq⟩ <;> rw [heq]
  · exact hown
  · exact .rejectedKey hi
  · exact answersWithin_missingKey e i

/-! ### The bits of a value -/

/-- A number of `n` bits has no bit above the low `n`. -/
theorem and_not_lowMask {x : BitVec 32} {n : Nat} (h : x.toNat < 2 ^ n) :
    x &&& ~~~BitVec.ofNat 32 (2 ^ n - 1) = 0 := by
  ext j hj
  by_cases hn : j < n
  · simp [hj, hn, ← BitVec.getLsbD_eq_getElem, BitVec.getLsbD_ofNat, Nat.testBit_two_pow_sub_one]
  · have hbit : x.getLsbD j = false :=
      Nat.testBit_lt_two_pow (h.trans_le (Nat.pow_le_pow_right (by decide) (by omega)))
    simp [← BitVec.getLsbD_eq_getElem, hbit]

/-- An `OK` answer of at most `n` bits, from a command whose rule defines the low `n` bits of `DATA`. -/
theorem answersWithin_of_lt {i : Instr} {e : Engine} {data : BitVec 32} (n : Nat)
    (hmask : dataBits i = BitVec.ofNat 32 (2 ^ n - 1)) (hdata : data.toNat < 2 ^ n)
    (hi : ¬(i = .fin ∨ ∃ ch, i = .putc ch)) : AnswersWithin e i (respond .ok 0 data) :=
  .value i (by rw [hmask, and_not_lowMask hdata]) fun hpair => absurd hpair hi

theorem toNat_zext32_lt {v : Int} {n : Nat} (h : v < 2 ^ n) : (zext32 v).toNat < 2 ^ n := by
  rw [zext32, BitVec.toNat_ofNat]
  refine (Nat.mod_le _ _).trans_lt ?_
  have hpos : 0 < 2 ^ n := Nat.two_pow_pos n
  zify at hpos ⊢
  omega

/-- A residue has five bits. -/
theorem toNat_zext32_residue {v : Int} (h : v ≤ 25) : (zext32 v).toNat < 2 ^ 5 :=
  toNat_zext32_lt (by omega)

/-- The greatest common divisor of two `s16` operands is at most 32768 (`40_modular_arithmetic.md` R108). -/
theorem euclidGcd_sext16_le (a b : KeyWord) : euclidGcd (sext16 a) (sext16 b) ≤ 32768 := by
  have ha := sext16_bounds a
  have hb := sext16_bounds b
  rw [euclidGcd_eq]
  by_cases hzero : sext16 a = 0
  · rw [hzero, Int.gcd_zero_left]
    omega
  · have hle : Int.gcd (sext16 a) (sext16 b) ≤ (sext16 a).natAbs := Int.gcd_le_natAbs_left _ hzero
    omega

theorem toNat_letterOf_setWidth (d : Digit) : ((letterOf d).setWidth 32).toNat < 2 ^ 8 := by
  rw [BitVec.toNat_setWidth]
  exact (Nat.mod_le _ _).trans_lt (letterOf d).isLt

/-- The two zero fields of the status register are all that its rule leaves undefined (`10_state.md` R31). -/
theorem statusRegister_and_not_dataBits (e : Engine) : statusRegister e &&& ~~~dataBits .rdsr = 0 := by
  have hmask : ~~~dataBits .rdsr =
      BitVec.allOnes 20 ++ 0#4 ++ 3#2 ++ 0#1 ++ 0#1 ++ 0#2 ++ 0#2 := by decide
  rw [hmask, statusRegister]
  iterate 6 rw [BitVec.and_append]
  simp only [BitVec.and_zero, BitVec.zero_and]
  decide

/-! ### Every command -/

theorem answersWithin_invEntry {i : Instr} {e : Engine} {entry : Mat2 → Int} (hmask : dataBits i = 0x1F)
    (hi : ¬(i = .fin ∨ ∃ ch, i = .putc ch)) (hentry : ∀ n : Mat2, n.IsReduced → entry n ≤ 25) :
    AnswersWithin e i (invEntry entry e).word := by
  rcases invEntry_cases entry e with ⟨n, -, hn, heq⟩ | ⟨-, -, heq⟩ | ⟨-, heq⟩ <;> rw [heq]
  · exact answersWithin_of_lt 5 hmask (toNat_zext32_residue (hentry n (isReduced_of_invert hn))) hi
  · exact answersWithin_inconsistency e i
  · exact answersWithin_missingKey e i

theorem answersWithin_minv {a : KeyWord} {e : Engine} {o : Option Int} (ho : minv26 (sext16 a) = o) :
    AnswersWithin e (.minv a) (match o with
      | some x => answerOk e (zext32 x)
      | none => raise e .noInverse).word := by
  cases o with
  | none => exact .status _ (by decide) (by decide)
  | some x =>
    obtain ⟨-, hx_le, -⟩ := minv26_some ho
    exact answersWithin_of_lt 5 rfl (toNat_zext32_residue hx_le) (by simp)

theorem answersWithin_stdec (e : Engine) (o : Option Mat2) :
    AnswersWithin e .stdec (match o with
      | none => takeInconsistency e
      | some n => answerOk (openSession .dec (loadMatrix n e)) 0).word := by
  cases o with
  | none => exact answersWithin_inconsistency e .stdec
  | some n => exact answersWithin_zero e .stdec

theorem answersWithin_emitPair {i : Instr} {e e' : Engine} (hi : i = .fin ∨ ∃ ch, i = .putc ch)
    (p : Option DigitPair) : AnswersWithin e i (emitPair e' p) := by
  cases p with
  | none => exact answersWithin_zero e i
  | some p =>
    by_cases hmode : e'.mode = .prv
    · rw [emitPair, emit_prv hmode]
      exact .pair hi _ _
    · rw [emitPair, emit_cipher hmode]
      exact .pair hi _ _

theorem answersWithin_finResponse (e : Engine) : AnswersWithin e .fin (finResponse e) := by
  unfold finResponse
  split
  · exact .status .fin (by decide) (by decide)
  · exact answersWithin_emitPair (.inl rfl) _

theorem answersWithin_replyOf (i : Instr) (e : Engine) : AnswersWithin e i (replyOf i e).word := by
  cases i with
  | rdsr => exact .value .rdsr (statusRegister_and_not_dataBits e) (by simp)
  | cmod n =>
    exact answersWithin_of_whenIdle (replyOf_cmod n e)
      (answersWithin_of_lt 5 rfl (toNat_zext32_residue (cmod26_bounds _).2) (by simp))
  | gcd a b =>
    exact answersWithin_of_whenIdle (replyOf_gcd a b e)
      (answersWithin_of_lt 16 rfl (toNat_zext32_lt ((euclidGcd_sext16_le a b).trans_lt (by decide))) (by simp))
  | minv a => exact answersWithin_of_whenIdle (replyOf_minv a e) (answersWithin_minv rfl)
  | mulm a b =>
    exact answersWithin_of_whenIdle (replyOf_mulm a b e)
      (answersWithin_of_lt 5 rfl (toNat_zext32_residue (cmod26_bounds _).2) (by simp))
  | decd d =>
    exact answersWithin_of_whenIdle (replyOf_decd d e)
      (answersWithin_of_lt 8 rfl (toNat_letterOf_setWidth d) (by simp))
  | ldk11 v => exact answersWithin_of_whenIdle (replyOf_ldk11 v e) (answersWithin_zero e _)
  | ldk12 v => exact answersWithin_of_whenIdle (replyOf_ldk12 v e) (answersWithin_zero e _)
  | ldk21 v => exact answersWithin_of_whenIdle (replyOf_ldk21 v e) (answersWithin_zero e _)
  | ldk22 v => exact answersWithin_of_whenIdle (replyOf_ldk22 v e) (answersWithin_zero e _)
  | det =>
    exact answersWithin_of_whenIdle (replyOf_det e)
      (answersWithin_of_withKey (answersWithin_of_lt 32 rfl (BitVec.isLt _) (by simp)))
  | isinv =>
    exact answersWithin_of_whenIdle (replyOf_isinv e)
      (answersWithin_of_withKey (answersWithin_of_lt 1 rfl (by split <;> decide) (by simp)))
  | inv11 =>
    exact answersWithin_of_whenIdle (replyOf_inv11 e)
      (answersWithin_invEntry rfl (by simp) fun _ ⟨⟨_, ha⟩, _⟩ => ha)
  | inv12 =>
    exact answersWithin_of_whenIdle (replyOf_inv12 e)
      (answersWithin_invEntry rfl (by simp) fun _ ⟨_, ⟨_, hb⟩, _⟩ => hb)
  | inv21 =>
    exact answersWithin_of_whenIdle (replyOf_inv21 e)
      (answersWithin_invEntry rfl (by simp) fun _ ⟨_, _, ⟨_, hc⟩, _⟩ => hc)
  | inv22 =>
    exact answersWithin_of_whenIdle (replyOf_inv22 e)
      (answersWithin_invEntry rfl (by simp) fun _ ⟨_, _, _, ⟨_, hd⟩⟩ => hd)
  | stenc =>
    exact answersWithin_of_whenIdle (replyOf_stenc e) (answersWithin_of_withGate (.inl rfl) (answersWithin_zero e _))
  | stdec =>
    exact answersWithin_of_whenIdle (replyOf_stdec e)
      (answersWithin_of_withGate (.inr rfl) (answersWithin_stdec e _))
  | stprv => exact answersWithin_of_whenIdle (replyOf_stprv e) (answersWithin_zero e _)
  | putc ch =>
    exact answersWithin_of_whenRun (replyOf_putc ch e) (answersWithin_emitPair (.inr ⟨ch, rfl⟩) _)
  | fin => exact answersWithin_of_whenRun (replyOf_fin e) (answersWithin_finResponse e)

/-! ### Every word -/

theorem statusCode_toNat_le (st : Status) : (statusCode st).toNat ≤ 7 := by
  cases st <;> decide

/-- The eight codes tell the statuses apart, so a response's field tells which it is. -/
theorem rspSt_eq_iff {st st' : Status} {aux : BitVec 8} {data : BitVec 32} :
    rspSt (respond st aux data) = statusCode st' ↔ st = st' := by
  rw [rspSt_respond]
  exact ⟨statusCode_injective, congrArg statusCode⟩

/-- What the statement says of the response `r` to a word that decodes as `d`, on the registers `e`. -/
def ResponseWithin (e : Engine) (d : Decoded) (r : RspWord) : Prop :=
  (rspSt r).toNat ≤ 7 ∧
  (rspSt r ≠ statusCode .ok → rspSt r ≠ statusCode .nonInvertibleKey → rspAux r = 0 ∧ rspData r = 0) ∧
  (rspSt r = statusCode .nonInvertibleKey →
    (d = .ok .stenc ∨ d = .ok .stdec) ∧
    ∃ delta : Int, delta = e.k11.toInt * e.k22.toInt - e.k12.toInt * e.k21.toInt ∧
      rspAux r = BitVec.ofInt 8 (delta % 26) ∧ rspData r = BitVec.ofInt 32 delta) ∧
  (rspSt r = statusCode .ok →
    ∃ i, d = .ok i ∧ rspAux r &&& ~~~auxBits i = 0 ∧ rspData r &&& ~~~dataBits i = 0 ∧
      ((i = .fin ∨ ∃ ch, i = .putc ch) → rspAux r = 0 → rspData r = 0))

theorem responseWithin_status {st : Status} (hok : st ≠ .ok) (hrejected : st ≠ .nonInvertibleKey) (e : Engine)
    (d : Decoded) : ResponseWithin e d (respond st 0 0) :=
  ⟨rspSt_respond st 0 0 ▸ statusCode_toNat_le st, fun _ _ => ⟨rspAux_respond st 0 0, rspData_respond st 0 0⟩,
    fun h => absurd (rspSt_eq_iff.mp h) hrejected, fun h => absurd (rspSt_eq_iff.mp h) hok⟩

theorem responseWithin_nonInvertible {i : Instr} (hi : i = .stenc ∨ i = .stdec) (e : Engine) :
    ResponseWithin e (.ok i) (nonInvertible e).word := by
  rw [nonInvertible_word]
  refine ⟨?code, fun _ hrejected => ?error, fun _ => ⟨hi.imp (congrArg _) (congrArg _), ?payload⟩, fun h => ?ok⟩
  case code => exact rspSt_respond .nonInvertibleKey _ _ ▸ statusCode_toNat_le _
  case error => exact absurd (rspSt_respond _ _ _) hrejected
  case payload => exact ⟨det (keyMatrix e), det_keyMatrix e, rspAux_respond _ _ _, rspData_respond _ _ _⟩
  case ok => cases rspSt_eq_iff.mp h

theorem responseWithin_ok {i : Instr} {aux : BitVec 8} {data : BitVec 32} (haux : aux &&& ~~~auxBits i = 0)
    (hdata : data &&& ~~~dataBits i = 0) (hpair : (i = .fin ∨ ∃ ch, i = .putc ch) → aux = 0 → data = 0) (e : Engine) :
    ResponseWithin e (.ok i) (respond .ok aux data) := by
  refine ⟨?code, fun hok => ?error, fun h => ?rejected, fun _ => ⟨i, rfl, ?bits⟩⟩
  case code => exact rspSt_respond .ok _ _ ▸ statusCode_toNat_le _
  case error => exact absurd (rspSt_respond _ _ _) hok
  case rejected => cases rspSt_eq_iff.mp h
  case bits =>
    rw [rspAux_respond, rspData_respond]
    exact ⟨haux, hdata, hpair⟩

/-- The two elements of a pair are the low 16 bits of `DATA`, and the pair comes with `OUTV` (R80). -/
theorem responseWithin_pair {i : Instr} (hi : i = .fin ∨ ∃ ch, i = .putc ch) (w1 w2 : Char8) (e : Engine) :
    ResponseWithin e (.ok i) (pairResponse w1 w2) := by
  have hbits : auxBits i = 1 ∧ dataBits i = BitVec.ofNat 32 (2 ^ 16 - 1) := by
    rcases hi with rfl | ⟨ch, rfl⟩ <;> exact ⟨rfl, rfl⟩
  obtain ⟨haux, hdata⟩ := hbits
  rw [pairResponse_eq]
  refine responseWithin_ok (by rw [haux]; decide) ?_ (fun _ h => absurd h (by decide)) e
  rw [hdata, and_not_lowMask]
  rw [BitVec.toNat_ofNat]
  omega

theorem responseWithin_of_answersWithin {e : Engine} {i : Instr} {r : RspWord} (h : AnswersWithin e i r) :
    ResponseWithin e (.ok i) r := by
  cases h with
  | status hok hrejected => exact responseWithin_status hok hrejected e _
  | rejectedKey hi => exact responseWithin_nonInvertible hi e
  | value hbits hnoPair => exact responseWithin_ok BitVec.zero_and hbits (fun hi _ => hnoPair hi) e
  | pair hi w1 w2 => exact responseWithin_pair hi w1 w2 e

theorem responseWithin_wordReply (w : CmdWord) (e : Engine) : ResponseWithin e (decode w) (wordReply w e).word := by
  unfold wordReply
  cases decode w with
  | error x => exact responseWithin_status (by decide) (by decide) e _
  | ok i => exact responseWithin_of_answersWithin (answersWithin_replyOf i e)

/-- Settles O20: the response is the word's reply, which is illegal or one of the answers of a command. -/
theorem unusedResponseBitsAreZero : Obligations.UnusedResponseBitsAreZero := by
  intro w s t r haccept hrsp
  rw [accept_eq_deliver] at haccept
  obtain ⟨-, hword, -⟩ := deliver_next haccept
  cases hrsp.symm.trans hword
  exact responseWithin_wordReply w s.engine

/-! ### `STDEC` -/

/-- Settles O43: in `RUN` it is turned away; in `IDLE` the key is absent, rejected by the gate, or inverted. -/
theorem stdecNeverFindsAnInconsistency : Obligations.StdecNeverFindsAnInconsistency := by
  intro s t hfault hexec
  cases hfsm : s.engine.fsm with
  | fault => exact absurd hfsm hfault
  | run =>
    cases ((legalOnlyInIdle_of_replyOf replyOf_stdec s).1 hfsm).symm.trans hexec
    simp [hfsm, statusCode]
  | idle =>
    by_cases hpresent : s.engine.kv = 0b1111#4
    · rcases keyAdmitted_or_keyInadmissible hpresent with hadmitted | hrejected
      · obtain ⟨n, -, hopens⟩ := exec_stdec_of_admitted hfsm hadmitted
        cases hopens.symm.trans hexec
        simp [statusCode]
      · cases (exec_opening_of_rejected (by decide) hfsm hrejected).symm.trans hexec
        simp [hfsm, nonInvertible_word, statusCode]
    · cases (exec_opening_of_absent (by decide) hfsm hpresent).symm.trans hexec
      simp [hfsm, statusCode]

end Sys2Proof.Machine
end

section
/-! The arithmetic of the rules: the canonical residue, Euclid's loop, the inverse search, the determinant, the gate,
the inverter and the pair transform (`40_modular_arithmetic.md`, `42_key_validator.md` R142, R143,
`43_matrix_inverter.md` R163, `44_cipher_engine.md` R176). Each function is Lean's own up to a lemma (`cmod26_eq_emod`, `euclidGcd_eq`), so the
laws are those of remainders, greatest common divisors and congruences modulo 26. -/

namespace Sys2Proof.Machine

/-! ### The residue (R101) -/

/-- Congruence modulo 26 is equality of residues. -/
theorem cmod26_eq_cmod26_iff {m n : Int} : cmod26 m = cmod26 n ↔ m ≡ n [ZMOD 26] := by
  rw [cmod26_eq_emod, cmod26_eq_emod, Int.ModEq]

/-- A number is congruent to its residue. -/
theorem cmod26_modEq (n : Int) : cmod26 n ≡ n [ZMOD 26] := by
  rw [cmod26_eq_emod]
  exact Int.mod_modEq n 26

/-- The residue is pinned by its range and its congruence. -/
theorem cmod26_eq_iff {n r : Int} (h : 0 ≤ r) (h' : r ≤ 25) : cmod26 n = r ↔ n ≡ r [ZMOD 26] := by
  rw [← cmod26_eq_cmod26_iff, cmod26_of_residue h h']

/-- Settles O22: the laws are those of congruence modulo 26, of which `cmod26` picks the residue. -/
theorem canonicalResidueLaws : Obligations.CanonicalResidueLaws := by
  refine ⟨cmod26_bounds, fun n => ?congruent, fun n r hr hr' hdvd => ?unique, fun n => cmod26_of_residue,
    fun n k => ?period, fun a b => ?sum, fun a b => ?product, fun n => ?negation, fun n => ?flooring⟩
  case congruent => exact (cmod26_modEq n).dvd
  case unique => exact ((cmod26_eq_iff hr hr').mpr (Int.modEq_iff_dvd.mpr hdvd).symm).symm
  case period =>
    rw [cmod26_eq_cmod26_iff]
    exact Int.modEq_add_fac_self
  case sum =>
    rw [cmod26_eq_cmod26_iff]
    exact ((cmod26_modEq a).add (cmod26_modEq b)).symm
  case product =>
    rw [cmod26_eq_cmod26_iff]
    exact ((cmod26_modEq a).mul (cmod26_modEq b)).symm
  case negation =>
    rw [cmod26_eq_emod, cmod26_eq_emod, cmod26_eq_emod]
    omega
  case flooring => rw [cmod26_eq_emod, Int.fmod_eq_emod_of_nonneg n (by decide)]

/-! ### Euclid's loop (R102, R103) -/

/-- The greatest common divisor of each residue and 26. -/
theorem gcd_residue_eq {r : Int} (h : 0 ≤ r) (h' : r ≤ 25) :
    (Int.gcd r 26 : Int) = if r = 0 then 26 else if r = 13 then 13 else if r % 2 = 0 then 2 else 1 := by
  have residues : ∀ q : Fin 26, (Int.gcd q.val 26 : Int) =
      if (q.val : Int) = 0 then 26 else if (q.val : Int) = 13 then 13 else if (q.val : Int) % 2 = 0 then 2 else 1 := by
    decide
  obtain ⟨n, rfl⟩ := Int.eq_ofNat_of_zero_le h
  exact residues ⟨n, by omega⟩

/-- Settles O23: the loop's value is `Int.gcd`. -/
theorem euclidComputesTheGreatestCommonDivisor : Obligations.EuclidComputesTheGreatestCommonDivisor := by
  refine ⟨fun a b => ⟨?nonneg, ?left, ?right, fun c ha hb => ?greatest⟩, fun a => ⟨?zeroRight, ?zeroLeft⟩,
    fun a b => ⟨?comm, ?negLeft, ?negRight⟩, ?zeros, fun r hr hr' => ?residues⟩ <;> simp only [euclidGcd_eq]
  case nonneg => exact Int.natCast_nonneg _
  case left => exact Int.gcd_dvd_left ..
  case right => exact Int.gcd_dvd_right ..
  case greatest => exact Int.dvd_coe_gcd ha hb
  case zeroRight => rw [Int.gcd_zero_right, Int.natCast_natAbs]
  case zeroLeft => rw [Int.gcd_zero_left, Int.natCast_natAbs]
  case comm => rw [Int.gcd_comm]
  case negLeft => rw [Int.neg_gcd]
  case negRight => rw [Int.gcd_neg]
  case zeros => rfl
  case residues => exact gcd_residue_eq hr hr'

/-! ### The inverse search (R104) -/

/-- Settles O24: the search succeeds on the units, and what it finds is the inverse in 1 to 25, of which there is
one. -/
theorem inverseSearchFindsTheUnits : Obligations.InverseSearchFindsTheUnits := by
  refine ⟨fun a => ?units, fun a x => ⟨fun hx => ?found, fun ⟨hx_pos, hx_le, hx⟩ => ?finds⟩, fun a b hab => ?residue⟩
  case units =>
    rw [← Option.isSome_iff_exists, minv26_isSome_iff, euclidGcd_eq, cmod26_eq_emod]
    exact Nat.cast_eq_one.symm
  case found =>
    obtain ⟨hx_pos, hx_le, hx⟩ := minv26_some hx
    exact ⟨hx_pos, hx_le, (cmod26_eq_emod _).trans hx⟩
  case finds => exact minv26_eq_some hx_pos hx_le ((cmod26_eq_emod _).symm.trans hx)
  case residue => rw [← minv26_cmod26 a, hab, minv26_cmod26]

/-! ### The determinant (`42_key_validator.md` R143) -/

/-- The key of a call is that of an engine with its four entries loaded. -/
theorem keyOf_eq_keyMatrix (a b c d : KeyWord) :
    keyOf a b c d = keyMatrix { Engine.reset with k11 := a, k12 := b, k21 := c, k22 := d } := rfl

/-- Settles O25: the bounds of the two products bound their difference, which the field therefore carries exactly. -/
theorem determinantNeverWraps : Obligations.DeterminantNeverWraps := by
  refine ⟨fun a b c d => ?_, by decide, by decide⟩
  obtain ⟨had, had'⟩ := sext16_mul_bounds a d
  obtain ⟨hbc, hbc'⟩ := sext16_mul_bounds b c
  have hdet : det (keyOf a b c d) = sext16 a * sext16 d - sext16 b * sext16 c := rfl
  refine ⟨by omega, by omega, ?readsBack, ?exact⟩
  case readsBack =>
    rw [keyOf_eq_keyMatrix]
    exact toInt_tc32_det_keyMatrix _
  case exact => simp only [hdet, sext16_eq_toInt]

/-! ### The gate (R142) -/

theorem det_reduce26_modEq (k : Mat2) : det (reduce26 k) ≡ det k [ZMOD 26] :=
  ((cmod26_modEq k.a).mul (cmod26_modEq k.d)).sub ((cmod26_modEq k.b).mul (cmod26_modEq k.c))

/-- Settles O26: of the residues only the odd ones but 13 are coprime to 26. -/
theorem invertibleKeysAreTheOddResidues : Obligations.InvertibleKeysAreTheOddResidues := by
  refine ⟨fun k => ?residues, fun k => ?reduced⟩
  case residues =>
    have hgcd := gcd_residue_eq (Int.emod_nonneg (det k) (by decide : (26 : Int) ≠ 0)) (by omega)
    rw [isInvertible_iff]
    split_ifs at hgcd <;> omega
  case reduced =>
    rw [isInvertible, isInvertible, cmod26_eq_cmod26_iff.mpr (det_reduce26_modEq k)]

/-! ### The inverter (`43_matrix_inverter.md` R161, R163) -/

/-- What the inverter answers, as congruences: the adjugate times an inverse of the determinant. -/
structure IsScaledAdjugate (k n : Mat2) (x : Int) : Prop where
  reduced : n.IsReduced
  a : n.a ≡ k.d * x [ZMOD 26]
  b : n.b ≡ -k.b * x [ZMOD 26]
  c : n.c ≡ -k.c * x [ZMOD 26]
  d : n.d ≡ k.a * x [ZMOD 26]
  inverse : det k * x ≡ 1 [ZMOD 26]

theorem mulm26_cmod26_modEq (v x : Int) : mulm26 (cmod26 v) x ≡ v * x [ZMOD 26] := by
  rw [mulm26_cmod26]
  exact Int.mod_modEq _ 26

theorem isScaledAdjugate_of_invert {k n : Mat2} (hn : invert k = some n) : ∃ x, IsScaledAdjugate k n x := by
  have hreduced := isReduced_of_invert hn
  obtain ⟨x, hx, rfl⟩ := invert_some hn
  rw [minv26_cmod26] at hx
  obtain ⟨-, -, hinverse⟩ := minv26_some hx
  exact ⟨x, hreduced, mulm26_cmod26_modEq _ x, mulm26_cmod26_modEq _ x, mulm26_cmod26_modEq _ x,
    mulm26_cmod26_modEq _ x, hinverse⟩

/-- Congruence modulo 26 is equality in the ring of residues, where the identities below are computed. -/
theorem modEq_iff_zmod {m n : Int} : m ≡ n [ZMOD 26] ↔ (m : ZMod 26) = n :=
  (ZMod.intCast_eq_intCast_iff m n 26).symm

/-- The residue of a number is the one that its value in the ring of residues says. -/
theorem cmod26_eq_of_zmod {v r : Int} (hr : 0 ≤ r) (hr' : r ≤ 25) (hv : (v : ZMod 26) = r) : cmod26 v = r :=
  (cmod26_eq_iff hr hr').mpr (modEq_iff_zmod.mpr hv)

/-- The matrix product of two keys, unreduced. -/
def Mat2.mul (k n : Mat2) : Mat2 :=
  { a := k.a * n.a + k.b * n.c, b := k.a * n.b + k.b * n.d, c := k.c * n.a + k.d * n.c, d := k.c * n.b + k.d * n.d }

/-- The identity matrix modulo 26. -/
def Mat2.IsOne (k : Mat2) : Prop := cmod26 k.a = 1 ∧ cmod26 k.b = 0 ∧ cmod26 k.c = 0 ∧ cmod26 k.d = 1

namespace IsScaledAdjugate

variable {k n : Mat2} {x : Int}

/-- The congruences, in the ring of residues. -/
theorem zmod (h : IsScaledAdjugate k n x) :
    (n.a : ZMod 26) = k.d * x ∧ (n.b : ZMod 26) = -k.b * x ∧ (n.c : ZMod 26) = -k.c * x ∧
      (n.d : ZMod 26) = k.a * x ∧ ((k.a * k.d - k.b * k.c) * x : ZMod 26) = 1 := by
  have ha := modEq_iff_zmod.mp h.a
  have hb := modEq_iff_zmod.mp h.b
  have hc := modEq_iff_zmod.mp h.c
  have hd := modEq_iff_zmod.mp h.d
  have hinverse := modEq_iff_zmod.mp h.inverse
  push_cast [det] at ha hb hc hd hinverse
  exact ⟨ha, hb, hc, hd, hinverse⟩

/-- The inverter's answer is a left inverse. -/
theorem mul_left_isOne (h : IsScaledAdjugate k n x) : (n.mul k).IsOne := by
  obtain ⟨ha, hb, hc, hd, hinverse⟩ := h.zmod
  refine ⟨cmod26_eq_of_zmod (by decide) (by decide) ?a, cmod26_eq_of_zmod (by decide) (by decide) ?b,
    cmod26_eq_of_zmod (by decide) (by decide) ?c, cmod26_eq_of_zmod (by decide) (by decide) ?d⟩ <;>
    push_cast [Mat2.mul]
  case a => linear_combination (k.a : ZMod 26) * ha + k.c * hb + hinverse
  case b => linear_combination (k.b : ZMod 26) * ha + k.d * hb
  case c => linear_combination (k.a : ZMod 26) * hc + k.c * hd
  case d => linear_combination (k.b : ZMod 26) * hc + k.d * hd + hinverse

/-- The inverter's answer is a right inverse. -/
theorem mul_right_isOne (h : IsScaledAdjugate k n x) : (k.mul n).IsOne := by
  obtain ⟨ha, hb, hc, hd, hinverse⟩ := h.zmod
  refine ⟨cmod26_eq_of_zmod (by decide) (by decide) ?a, cmod26_eq_of_zmod (by decide) (by decide) ?b,
    cmod26_eq_of_zmod (by decide) (by decide) ?c, cmod26_eq_of_zmod (by decide) (by decide) ?d⟩ <;>
    push_cast [Mat2.mul]
  case a => linear_combination (k.a : ZMod 26) * ha + k.b * hc + hinverse
  case b => linear_combination (k.a : ZMod 26) * hb + k.b * hd
  case c => linear_combination (k.c : ZMod 26) * ha + k.d * hc
  case d => linear_combination (k.c : ZMod 26) * hb + k.d * hd + hinverse

/-- The determinant of the answer has the determinant of the key for its inverse. -/
theorem det_mul_det (h : IsScaledAdjugate k n x) : det n * det k ≡ 1 [ZMOD 26] := by
  obtain ⟨ha, hb, hc, hd, hinverse⟩ := h.zmod
  rw [modEq_iff_zmod]
  push_cast [det]
  rw [ha, hb, hc, hd]
  linear_combination ((k.a * k.d - k.b * k.c) * x + 1 : ZMod 26) * hinverse

theorem isInvertible (h : IsScaledAdjugate k n x) : isInvertible n = true :=
  (isInvertible_iff n).mpr (gcd_emod_eq_one_of_inverse h.det_mul_det)

/-- Scaled back by the determinant of the key, the entries of the answer are those of the key. -/
theorem entries_mul_det (h : IsScaledAdjugate k n x) :
    n.d * det k ≡ k.a [ZMOD 26] ∧ -n.b * det k ≡ k.b [ZMOD 26] ∧ -n.c * det k ≡ k.c [ZMOD 26] ∧
      n.a * det k ≡ k.d [ZMOD 26] := by
  obtain ⟨ha, hb, hc, hd, hinverse⟩ := h.zmod
  simp only [modEq_iff_zmod]
  push_cast [det]
  rw [ha, hb, hc, hd]
  refine ⟨?_, ?_, ?_, ?_⟩
  · linear_combination (k.a : ZMod 26) * hinverse
  · linear_combination (k.b : ZMod 26) * hinverse
  · linear_combination (k.c : ZMod 26) * hinverse
  · linear_combination (k.d : ZMod 26) * hinverse

end IsScaledAdjugate

theorem mulm26_cmod26_eq_cmod26 {v x r : Int} (h : v * x ≡ r [ZMOD 26]) : mulm26 (cmod26 v) x = cmod26 r := by
  rw [mulm26_cmod26, cmod26_eq_emod]
  exact h

/-- The inverse of the inverse is the reduced key. -/
theorem IsScaledAdjugate.invert_eq {k n : Mat2} {x : Int} (h : IsScaledAdjugate k n x) :
    invert n = some (reduce26 k) := by
  have hdet : det n * cmod26 (det k) % 26 = 1 := ((cmod26_modEq (det k)).mul_left _).trans h.det_mul_det
  obtain ⟨hpos, hle⟩ := cmod26_bounds (det k)
  have hne : cmod26 (det k) ≠ 0 := by
    intro hzero
    rw [hzero, mul_zero] at hdet
    cases hdet
  rw [invert_eq_some (by omega) hle hdet]
  obtain ⟨ha, hb, hc, hd⟩ := h.entries_mul_det
  have hscaled (v : Int) : v * cmod26 (det k) ≡ v * det k [ZMOD 26] := (cmod26_modEq _).mul_left v
  simp only [scale26, reduce26, adjugate, mulm26_cmod26_eq_cmod26 ((hscaled _).trans ha),
    mulm26_cmod26_eq_cmod26 ((hscaled _).trans hb), mulm26_cmod26_eq_cmod26 ((hscaled _).trans hc),
    mulm26_cmod26_eq_cmod26 ((hscaled _).trans hd)]

/-- Reducing the entries before scaling changes nothing (R161). -/
theorem scale26_reduce26 (x : Int) (k : Mat2) : scale26 x (reduce26 k) = scale26 x k := by
  have hentry (v : Int) : mulm26 (cmod26 v) x = mulm26 v x := (mulm26_cmod26 v x).trans (mulm26_eq_emod v x).symm
  simp only [scale26, reduce26, hentry]

theorem reduce26_adjugate_reduce26 (k : Mat2) : reduce26 (adjugate (reduce26 k)) = reduce26 (adjugate k) := by
  have hneg (v : Int) : cmod26 (-cmod26 v) = cmod26 (-v) := cmod26_eq_cmod26_iff.mpr (cmod26_modEq v).neg
  simp only [reduce26, adjugate, cmod26_cmod26, hneg]

/-- The inverter depends on residues only. -/
theorem invert_reduce26 (k : Mat2) : invert (reduce26 k) = invert k := by
  rw [invert, invert, cmod26_eq_cmod26_iff.mpr (det_reduce26_modEq k), reduce26_adjugate_reduce26]

/-- Settles O27: the answer is the scaled adjugate (`IsScaledAdjugate`), whose products with the key are computed in the
ring of residues. -/
theorem inverterInvertsModulo26 : Obligations.InverterInvertsModulo26 := by
  refine ⟨fun k => ?answers, fun k n hn => ?inverse, invert_reduce26, scale26_reduce26⟩
  case answers => rw [← Option.isSome_iff_exists, invert_isSome_iff]
  case inverse =>
    obtain ⟨x, h⟩ := isScaledAdjugate_of_invert hn
    obtain ⟨⟨ha, ha'⟩, ⟨hb, hb'⟩, ⟨hc, hc'⟩, hd, hd'⟩ := h.reduced
    exact ⟨⟨ha, ha', hb, hb', hc, hc', hd, hd'⟩, h.mul_left_isOne, h.mul_right_isOne, h.isInvertible, h.invert_eq⟩

/-! ### The pair transform (`44_cipher_engine.md` R176, R191) -/

theorem transform_reduce26 (m : Mat2) (v : Int × Int) : transform (reduce26 m) v = transform m v := by
  have hrow (a b : Int) : cmod26 (cmod26 a * v.1 + cmod26 b * v.2) = cmod26 (a * v.1 + b * v.2) :=
    cmod26_eq_cmod26_iff.mpr (((cmod26_modEq a).mul_right _).add ((cmod26_modEq b).mul_right _))
  simp only [transform, reduce26, hrow]

/-- Settles O28: each output is a residue, and a row's residue depends on its entries' residues. -/
theorem transformUsesResiduesOnly : Obligations.TransformUsesResiduesOnly := by
  intro m v
  obtain ⟨⟨h1, h1'⟩, h2, h2'⟩ := transform_bounds m v
  exact ⟨h1, h1', h2, h2', transform_reduce26 m v⟩

end Sys2Proof.Machine
end

section
/-! The codec on whole texts (`41_codec.md` R124 to R127). `pairUp` groups digits and pads the last of an odd number, so
that writing its pairs out again gives the digits and the padding (`flatMap_pairUp`); a letter's digit is decoded to its
uppercase (`letterOf_digitOf`), and the padding digit to `X`. -/

namespace Sys2Proof.Machine

open Sys2Proof.Config (padDigit)

/-! ### Pairs of digits -/

theorem length_pairUp (l : List Digit) : (pairUp l).length = (l.length + 1) / 2 := by
  induction l using pairUp.induct with
  | case1 => rfl
  | case2 d => simp [pairUp]
  | case3 d d' rest ih =>
    rw [pairUp, List.length_cons, ih, List.length_cons, List.length_cons]
    omega

/-- The pairs written out are the digits in order, with the padding after an odd number. -/
theorem flatMap_pairUp (l : List Digit) :
    ((pairUp l).flatMap fun p => [p.1, p.2]) = l ++ if l.length % 2 = 1 then [padDigit] else [] := by
  induction l using pairUp.induct with
  | case1 => rfl
  | case2 d => rfl
  | case3 d d' rest ih =>
    have hparity : (rest.length + 1 + 1) % 2 = rest.length % 2 := by omega
    rw [pairUp, List.flatMap_cons, ih, List.length_cons, List.length_cons, hparity]
    rfl

/-- Settles O48: the digits of the text are one for each of its letters. -/
theorem encodedTextIsItsDigitsInPairs : Obligations.EncodedTextIsItsDigitsInPairs := by
  intro t
  rw [encodeText, length_pairUp, flatMap_pairUp, List.length_map]
  exact ⟨rfl, rfl⟩

/-! ### Letters and their digits -/

theorem upcase_toNat (ch : Char8) :
    (upcase ch).toNat = if 0x61 ≤ ch.toNat then ch.toNat - 0x20 else ch.toNat := by
  unfold upcase
  split
  · rw [BitVec.toNat_sub, BitVec.toNat_ofNat]
    omega
  · rfl

/-- Decoding a letter's digit gives its uppercase. -/
theorem letterOf_digitOf {ch : Char8} (h : isLetter ch = true) : letterOf (digitOf ch) = upcase ch := by
  apply BitVec.eq_of_toNat_eq
  rw [letterOf_toNat, digitOf_toNat h, upcase_toNat]
  rw [isLetter_iff] at h
  split <;> omega

theorem map_letterOf_map_digitOf (t : List Char8) :
    ((t.filter isLetter).map digitOf).map letterOf = (t.filter isLetter).map upcase := by
  rw [List.map_map]
  exact List.map_congr_left fun ch hch => letterOf_digitOf (List.mem_filter.mp hch).2

/-- Settles O49: the letters of the pairs written out are those of the digits, and of the padding `X`. -/
theorem codecRoundTripIsTheNormalText : Obligations.CodecRoundTripIsTheNormalText := by
  intro t
  calc (encodeText t).flatMap (fun p => [letterOf p.1, letterOf p.2])
      = ((encodeText t).flatMap fun p => [p.1, p.2]).map letterOf := by rw [List.map_flatMap]; rfl
    _ = (((t.filter isLetter).map digitOf) ++
          if (t.filter isLetter).length % 2 = 1 then [padDigit] else []).map letterOf := by
        rw [encodeText, flatMap_pairUp, List.length_map]
    _ = normalText t := by
        rw [List.map_append, map_letterOf_map_digitOf, normalText, List.length_map]
        split
        · rfl
        · exact List.append_nil _

end Sys2Proof.Machine
end

section
/-! Whole calls (`44_cipher_engine.md` section 4). A keyed call loads its four entries (`runWords_opening`); its opening
then either opens a session, and the text and `FIN` follow (`runCall_of_opened`), or ends the call
(`runCall_of_rejected`). The text and `FIN` in an open session answer `OK` throughout, and put out the pairs of the
digits held and to come (`runOk_bodyWords`). Each call is these facts at its own opening. -/

namespace Sys2Proof.Machine

open Sys2Proof.Config (padDigit)

/-! ### Runs of encoded commands -/

theorem wordReply_encode (i : Instr) (e : Engine) : wordReply (encode i) e = replyOf i e := by
  rw [wordReply, decode_encode]

/-- A run that begins with a command whose reply is known. -/
theorem runWords_of_replyOf {i : Instr} {s : State} {r : Reply} (hr : replyOf i s.engine = r) (ws : List CmdWord) :
    runWords (encode i :: ws) s =
      ((runWords ws { s with engine := r.engine, rsp := none }).1,
        r.word :: (runWords ws { s with engine := r.engine, rsp := none }).2) := by
  rw [runWords_cons, wordReply_encode, hr]

/-- The response on offer is taken before the first word of a run (`20_memory.md` R52). -/
theorem runWords_take {ws : List CmdWord} (hws : ws ≠ []) (s : State) :
    runWords ws { s with rsp := none } = runWords ws s := by
  cases ws with
  | nil => exact absurd rfl hws
  | cons w ws => rw [runWords_cons, runWords_cons]

theorem bodyWords_ne_nil (t : List Char8) : bodyWords t ≠ [] :=
  List.append_ne_nil_of_right_ne_nil _ (List.cons_ne_nil _ _)

/-- The text of a call, one `PUTC` at a time. -/
theorem bodyWords_cons (ch : Char8) (t : List Char8) : bodyWords (ch :: t) = encode (.putc ch) :: bodyWords t := rfl

/-! ### Responses that are `OK`, and the text they carry -/

/-- Every response is `OK`, and the output text is `text` (`30_encoding.md` R80). -/
structure RunOk (rs : List RspWord) (text : List Char8) : Prop where
  all_ok : ∀ r ∈ rs, rspSt r = statusCode .ok
  text_eq : outputText rs = text

theorem runOk_nil : RunOk [] [] := ⟨nofun, rfl⟩

theorem RunOk.cons_silent {rs : List RspWord} {text : List Char8} (h : RunOk rs text) :
    RunOk (respond .ok 0 0 :: rs) text := by
  obtain ⟨hok, htext⟩ := h
  refine ⟨List.forall_mem_cons.mpr ⟨rspSt_respond _ _ _, hok⟩, ?_⟩
  rw [outputText_cons, outV_respond, htext, if_neg (fun h => absurd h.2 (by decide))]
  rfl

theorem RunOk.cons_pair {rs : List RspWord} {text : List Char8} (h : RunOk rs text) (w1 w2 : Char8) :
    RunOk (pairResponse w1 w2 :: rs) (w1 :: w2 :: text) := by
  obtain ⟨hok, htext⟩ := h
  refine ⟨List.forall_mem_cons.mpr ⟨rspSt_pairResponse w1 w2, hok⟩, ?_⟩
  rw [outputText_cons, if_pos ⟨rspSt_pairResponse w1 w2, outV_pairResponse w1 w2⟩, out1_pairResponse,
    out2_pairResponse, htext]
  rfl

theorem RunOk.replicate_append {rs : List RspWord} {text : List Char8} (h : RunOk rs text) (n : Nat) :
    RunOk (List.replicate n (respond .ok 0 0) ++ rs) text := by
  induction n with
  | zero => exact h
  | succ n ih => exact ih.cons_silent

theorem RunOk.find_error {rs : List RspWord} {text : List Char8} (h : RunOk rs text) :
    (rs.find? fun r => rspSt r != statusCode .ok) = none :=
  List.find?_eq_none.mpr fun r hr => by simp [h.all_ok r hr]

theorem RunOk.callResult_eq {rs : List RspWord} {text : List Char8} (h : RunOk rs text) :
    callResult rs = .ok text := by
  rw [callResult, h.find_error]
  exact congrArg CallResult.ok h.text_eq

/-- A call whose last response is its only error puts out what came before it (R185). -/
theorem RunOk.callResult_error {rs : List RspWord} {text : List Char8} {w : RspWord} (h : RunOk rs text)
    (hw : rspSt w ≠ statusCode .ok) :
    callResult (rs ++ [w]) = .err (rspSt w) (rspAux w) (rspData w) ∧ outputText (rs ++ [w]) = text := by
  have hfind : ((rs ++ [w]).find? fun r => rspSt r != statusCode .ok) = some w := by
    rw [List.find?_append, h.find_error]
    simp [hw]
  have hlast : outputText [w] = [] := by
    rw [outputText_cons, if_neg fun h => hw h.1]
    rfl
  refine ⟨by rw [callResult, hfind], ?_⟩
  calc outputText (rs ++ [w]) = outputText rs ++ outputText [w] := List.flatMap_append
    _ = text := by rw [hlast, h.text_eq, List.append_nil]

/-! ### Loading a key and opening a call (`42_key_validator.md` R140) -/

/-- The registers after the four loads of a call. -/
def loadKey (a b c d : KeyWord) (e : Engine) : Engine :=
  { e with k11 := a, k12 := b, k21 := c, k22 := d, kv := 0b1111#4 }

theorem setValid_all (kv : BitVec 4) :
    setValid .e22 (setValid .e21 (setValid .e12 (setValid .e11 kv))) = 0b1111#4 := by
  revert kv
  decide

theorem keyMatrix_loadKey (a b c d : KeyWord) (e : Engine) : keyMatrix (loadKey a b c d e) = keyOf a b c d := rfl

theorem invalidateKey_loadKey (a b c d : KeyWord) (e : Engine) :
    invalidateKey (loadKey a b c d e) = invalidateKey e := rfl

theorem keyAdmitted_loadKey {a b c d : KeyWord} (h : isInvertible (keyOf a b c d) = true) (e : Engine) :
    keyAdmitted (loadKey a b c d e) := ⟨rfl, h⟩

/-- A run that begins with a command answered `OK` in `IDLE`. -/
theorem runWords_load {i : Instr} {s : State} {e : Engine} {ws : List CmdWord} (hidle : s.engine.fsm = .idle)
    (hr : replyOf i s.engine = whenIdle s.engine (answerOk e 0)) :
    runWords (encode i :: ws) s =
      ((runWords ws { s with engine := e, rsp := none }).1,
        respond .ok 0 0 :: (runWords ws { s with engine := e, rsp := none }).2) :=
  runWords_of_replyOf (hr.trans (whenIdle_idle hidle _)) ws

/-- The first five words of a keyed call in `IDLE`: four loads, each answered `OK`, and the opening's own reply. -/
theorem runWords_opening {s : State} {a b c d : KeyWord} {i : Instr} {r : Reply} (hidle : s.engine.fsm = .idle)
    (hr : replyOf i (loadKey a b c d s.engine) = r) :
    runWords (keyWords a b c d ++ [encode i]) s =
      ({ s with engine := r.engine, rsp := none }, List.replicate 4 (respond .ok 0 0) ++ [r.word]) := by
  rw [loadKey, ← setValid_all s.engine.kv] at hr
  rw [keyWords, List.cons_append, List.cons_append, List.cons_append, List.cons_append, List.nil_append,
    runWords_load hidle (replyOf_ldk11 a _), runWords_load ?_ (replyOf_ldk12 b _),
    runWords_load ?_ (replyOf_ldk21 c _), runWords_load ?_ (replyOf_ldk22 d _), runWords_of_replyOf hr]
  · rfl
  all_goals exact hidle

/-- The call goes on with its text when the opening opens the session `e` (R86). -/
theorem runCall_of_opened {s : State} {a b c d : KeyWord} {i : Instr} {e : Engine} (hidle : s.engine.fsm = .idle)
    (hopen : replyOf i (loadKey a b c d s.engine) = answerOk e 0) (t : List Char8) :
    runCall (keyWords a b c d ++ [encode i]) t s =
      ((runWords (bodyWords t) { s with engine := e, rsp := none }).1,
        List.replicate 5 (respond .ok 0 0) ++ (runWords (bodyWords t) { s with engine := e, rsp := none }).2) := by
  have hopening := runWords_opening hidle hopen
  have hlast : (runWords (keyWords a b c d ++ [encode i]) s).2.getLast?.map rspSt = some (statusCode .ok) := by
    rw [hopening, List.getLast?_concat, Option.map_some, answerOk_word, rspSt_respond]
  rw [runCall_of_ok t hlast, runWords_append, hopening]
  rfl

/-- The call ends with its opening when that is not answered `OK` (R86). -/
theorem runCall_of_rejected {s : State} {a b c d : KeyWord} {i : Instr} {r : Reply} (hidle : s.engine.fsm = .idle)
    (hr : replyOf i (loadKey a b c d s.engine) = r) (hw : rspSt r.word ≠ statusCode .ok) (t : List Char8) :
    runCall (keyWords a b c d ++ [encode i]) t s =
      ({ s with engine := r.engine, rsp := none }, List.replicate 4 (respond .ok 0 0) ++ [r.word]) := by
  have hopening := runWords_opening hidle hr
  have hlast : (runWords (keyWords a b c d ++ [encode i]) s).2.getLast?.map rspSt ≠ some (statusCode .ok) := by
    rw [hopening, List.getLast?_concat, Option.map_some]
    exact fun h => hw (Option.some.inj h)
  rw [runCall_of_stop t hlast, hopening]

/-! ### `PUTC` and `FIN` in a session (`41_codec.md` R122, R123) -/

theorem replyOf_putc_of_not_letter {ch : Char8} {e : Engine} (hrun : e.fsm = .run) (hch : isLetter ch = false) :
    replyOf (.putc ch) e = answerOk { e with anychar := true } 0 := by
  rw [replyOf_putc, whenRun_run hrun, encodeStep_of_not_letter hch]
  rfl

theorem replyOf_putc_of_first {ch : Char8} {e : Engine} (hrun : e.fsm = .run) (hch : isLetter ch = true)
    (hhalf : e.half = false) :
    replyOf (.putc ch) e = answerOk { e with anychar := true, first := digitOf ch, half := true } 0 := by
  rw [replyOf_putc, whenRun_run hrun, encodeStep_of_first (e := { e with anychar := true }) hch hhalf]
  rfl

theorem replyOf_putc_of_second {ch : Char8} {e : Engine} (hrun : e.fsm = .run) (hch : isLetter ch = true)
    (hhalf : e.half = true) :
    replyOf (.putc ch) e =
      { engine := { e with anychar := true, first := 0, half := false }, word := emit e (e.first, digitOf ch) } := by
  rw [replyOf_putc, whenRun_run hrun, encodeStep_of_second (e := { e with anychar := true }) hch hhalf]
  rfl

theorem replyOf_fin_of_run {e : Engine} (hrun : e.fsm = .run) :
    replyOf .fin e = { engine := endCall e, word := finResponse e } := by
  rw [replyOf_fin, whenRun_run hrun]

/-- `PUTC` writes the pair buffer and `ANYCHAR` only. -/
theorem replyOf_putc_frame (ch : Char8) {e : Engine} (hrun : e.fsm = .run) :
    ∃ first half, (replyOf (.putc ch) e).engine = { e with first := first, half := half, anychar := true } := by
  rw [replyOf_putc, whenRun_run hrun]
  exact encodeStep_frame ch { e with anychar := true }

/-- The run of `FIN` alone. -/
theorem runWords_fin {s : State} (hrun : s.engine.fsm = .run) :
    runWords (bodyWords []) s = ({ s with engine := endCall s.engine, rsp := none }, [finResponse s.engine]) :=
  runWords_of_replyOf (replyOf_fin_of_run hrun) []

/-- The text and `FIN` end the call that is open, which reads the key and the mode only (R190). -/
theorem engine_runWords_bodyWords (t : List Char8) {s : State} (hrun : s.engine.fsm = .run) :
    (runWords (bodyWords t) s).1.engine = endCall s.engine := by
  induction t generalizing s with
  | nil => rw [runWords_fin hrun]
  | cons ch t ih =>
    obtain ⟨first, half, hengine⟩ := replyOf_putc_frame ch hrun
    rw [bodyWords_cons, runWords_of_replyOf rfl, hengine]
    refine (ih (s := { s with engine := { s.engine with first := first, half := half, anychar := true }, rsp := none })
      hrun).trans ?_
    rw [endCall_eq, endCall_eq]

/-! ### The text and `FIN` in an open session -/

/-- The digit that the pair buffer holds (`10_state.md` R28, R29). -/
def heldDigits (e : Engine) : List Digit := if e.half then [e.first] else []

/-- The pairs of the digit held and the letters to come, padded (`41_codec.md` R127). -/
def sessionPairs (e : Engine) (t : List Char8) : List DigitPair :=
  pairUp (heldDigits e ++ (t.filter isLetter).map digitOf)

/-- The two elements that the session puts out for a pair (R182). -/
def emitted (e : Engine) (p : DigitPair) : List Char8 := [out1 (emit e p), out2 (emit e p)]

/-- A session that holds no digit encodes its text. -/
theorem sessionPairs_of_empty {e : Engine} (hhalf : e.half = false) (t : List Char8) :
    sessionPairs e t = encodeText t := by
  rw [sessionPairs, heldDigits, hhalf]
  rfl

theorem heldDigits_of_half {e : Engine} (hhalf : e.half = true) : heldDigits e = [e.first] := by
  rw [heldDigits, if_pos hhalf]

/-- A character that is no letter is stripped from the session's pairs (`41_codec.md` R122). -/
theorem sessionPairs_of_not_letter {ch : Char8} (hch : isLetter ch = false) (e : Engine) (t : List Char8) :
    sessionPairs e (ch :: t) = sessionPairs { e with anychar := true } t := by
  simp [sessionPairs, hch, heldDigits]

/-- The first letter of a pair is the digit that is held next. -/
theorem sessionPairs_of_first {ch : Char8} {e : Engine} (hch : isLetter ch = true) (hhalf : e.half = false)
    (t : List Char8) :
    sessionPairs e (ch :: t) = sessionPairs { e with anychar := true, first := digitOf ch, half := true } t := by
  simp [sessionPairs, hch, heldDigits, hhalf]

/-- The second letter completes the session's next pair. -/
theorem sessionPairs_of_second {ch : Char8} {e : Engine} (hch : isLetter ch = true) (hhalf : e.half = true)
    (t : List Char8) :
    sessionPairs e (ch :: t) =
      (e.first, digitOf ch) :: sessionPairs { e with anychar := true, first := 0, half := false } t := by
  simp [sessionPairs, hch, heldDigits, hhalf, pairUp]

theorem emitted_prv {e : Engine} (hmode : e.mode = .prv) (p : DigitPair) :
    emitted e p = [p.1.setWidth 8, p.2.setWidth 8] := by
  rw [emitted, emit_prv hmode, out1_pairResponse, out2_pairResponse]

theorem emitted_cipher {e : Engine} (hmode : e.mode ≠ .prv) (p : DigitPair) :
    emitted e p = decodePair (transform (workMatrix e) (pairVector p)) := by
  rw [emitted, emit_cipher hmode, out1_pairResponse, out2_pairResponse, decodePair]

/-- The response that carries a pair puts out its two elements. -/
theorem RunOk.cons_emit {rs : List RspWord} {text : List Char8} (h : RunOk rs text) (e : Engine) (p : DigitPair) :
    RunOk (emit e p :: rs) (emitted e p ++ text) := by
  have hpair : ∃ w1 w2, emit e p = pairResponse w1 w2 := by
    by_cases hmode : e.mode = .prv
    · exact ⟨_, _, emit_prv hmode p⟩
    · exact ⟨_, _, emit_cipher hmode p⟩
  obtain ⟨w1, w2, hp⟩ := hpair
  rw [emitted, hp, out1_pairResponse, out2_pairResponse]
  exact h.cons_pair w1 w2

/-- `FIN` puts out the pair of the digit held and the padding, if one is held (R181). -/
theorem runOk_finResponse {e : Engine} (hsome : ¬(e.mode = .dec ∧ e.anychar = false)) :
    RunOk [finResponse e] ((sessionPairs e []).flatMap (emitted e)) := by
  cases hhalf : e.half with
  | false =>
    rw [finResponse_of_even hsome hhalf, sessionPairs_of_empty hhalf]
    exact runOk_nil.cons_silent
  | true =>
    rw [finResponse_of_odd hsome hhalf, sessionPairs, heldDigits_of_half hhalf]
    exact runOk_nil.cons_emit e (e.first, padDigit)

/-- The text and `FIN` in an open session answer `OK` throughout, but for a `DEC` session without any character, and put
out the session's pairs. -/
theorem runOk_bodyWords (t : List Char8) {s : State} (hrun : s.engine.fsm = .run)
    (hsome : s.engine.mode = .dec → s.engine.anychar = true ∨ t ≠ []) :
    RunOk (runWords (bodyWords t) s).2 ((sessionPairs s.engine t).flatMap (emitted s.engine)) := by
  induction t generalizing s with
  | nil =>
    rw [runWords_fin hrun]
    refine runOk_finResponse fun ⟨hdec, hnone⟩ => ?_
    rcases hsome hdec with hany | hne
    · cases hnone.symm.trans hany
    · exact hne rfl
  | cons ch t ih =>
    rw [bodyWords_cons]
    cases hch : isLetter ch with
    | false =>
      rw [runWords_of_replyOf (replyOf_putc_of_not_letter hrun hch), sessionPairs_of_not_letter hch]
      exact (ih (s := { s with engine := { s.engine with anychar := true }, rsp := none }) hrun
        fun _ => .inl rfl).cons_silent
    | true =>
      cases hhalf : s.engine.half with
      | false =>
        rw [runWords_of_replyOf (replyOf_putc_of_first hrun hch hhalf), sessionPairs_of_first hch hhalf]
        exact (ih (s := { s with
          engine := { s.engine with anychar := true, first := digitOf ch, half := true }, rsp := none }) hrun
          fun _ => .inl rfl).cons_silent
      | true =>
        rw [runWords_of_replyOf (replyOf_putc_of_second hrun hch hhalf), sessionPairs_of_second hch hhalf]
        exact (ih (s := { s with
          engine := { s.engine with anychar := true, first := 0, half := false }, rsp := none }) hrun
          fun _ => .inl rfl).cons_emit s.engine _

/-! ### Keyed calls in `IDLE` (R187, R188) -/

/-- A keyed session ends in the reset state (R190). -/
theorem endCall_of_keyed {e : Engine} (hmode : e.mode ≠ .prv) : endCall e = Engine.reset := by
  rw [endCall_eq, if_neg hmode]

theorem replyOf_stenc_of_admitted {e : Engine} (hidle : e.fsm = .idle) (hadmitted : keyAdmitted e) :
    replyOf .stenc e = answerOk (openSession .enc (loadMatrix (reduce26 (keyMatrix e)) e)) 0 := by
  rw [replyOf_stenc, whenIdle_idle hidle, withGate_admitted hadmitted]

theorem replyOf_stdec_of_admitted {e : Engine} {n : Mat2} (hidle : e.fsm = .idle) (hadmitted : keyAdmitted e)
    (hn : invert (keyMatrix e) = some n) :
    replyOf .stdec e = answerOk (openSession .dec (loadMatrix n e)) 0 := by
  rw [replyOf_stdec, whenIdle_idle hidle, withGate_admitted hadmitted, hn]

theorem replyOf_opening_of_rejected {i : Instr} {e : Engine} (hi : i ∈ [Instr.stenc, .stdec])
    (hidle : e.fsm = .idle) (hrejected : keyInadmissible e) : replyOf i e = nonInvertible e := by
  obtain ⟨own, hreply⟩ := replyOf_opening hi e
  rw [hreply, whenIdle_idle hidle, withGate_rejected hrejected]

/-- The pairs of a session freshly opened on a reduced matrix are those of the cipher. -/
theorem flatMap_emitted_openSession {mode : Mode} {m : Mat2} (hmode : mode ≠ .prv) (hm : m.IsReduced) (e : Engine)
    (t : List Char8) :
    (sessionPairs (openSession mode (loadMatrix m e)) t).flatMap (emitted (openSession mode (loadMatrix m e))) =
      cipherText m t := by
  have hwork : workMatrix (openSession mode (loadMatrix m e)) = m := workMatrix_loadMatrix hm e
  have hemitted := funext (emitted_cipher (e := openSession mode (loadMatrix m e)) hmode)
  rw [sessionPairs_of_empty rfl, hemitted, hwork, cipherText]

/-- A keyed call whose opening opens a session on a reduced matrix, and whose text is one that the mode takes. -/
theorem runCall_computes_cipher {s : State} {a b c d : KeyWord} {i : Instr} {mode : Mode} {m : Mat2}
    {t : List Char8} (hidle : s.engine.fsm = .idle) (hmode : mode ≠ .prv) (hm : m.IsReduced)
    (hopen : replyOf i (loadKey a b c d s.engine) =
      answerOk (openSession mode (loadMatrix m (loadKey a b c d s.engine))) 0)
    (hsome : mode = .dec → t ≠ []) :
    callResult (runCall (keyWords a b c d ++ [encode i]) t s).2 = .ok (cipherText m t) := by
  rw [runCall_of_opened hidle hopen, ← flatMap_emitted_openSession hmode hm (loadKey a b c d s.engine) t]
  exact ((runOk_bodyWords t rfl fun hdec => .inr (hsome hdec)).replicate_append 5).callResult_eq

/-- A keyed call that opens its session leaves the reset state. -/
theorem engine_runCall_of_opened {s : State} {a b c d : KeyWord} {i : Instr} {e : Engine}
    (hidle : s.engine.fsm = .idle) (hopen : replyOf i (loadKey a b c d s.engine) = answerOk e 0)
    (hrun : e.fsm = .run) (hmode : e.mode ≠ .prv) (t : List Char8) :
    (runCall (keyWords a b c d ++ [encode i]) t s).1.engine = Engine.reset := by
  rw [runCall_of_opened hidle hopen]
  exact (engine_runWords_bodyWords t hrun).trans (endCall_of_keyed hmode)

/-- Settles O50: `STENC` opens a session on the reduced key. -/
theorem encryptCallComputesTheCipher : Obligations.EncryptCallComputesTheCipher := by
  intro s t a b c d hidle hinv
  have hopen := replyOf_stenc_of_admitted (e := loadKey a b c d s.engine) hidle (keyAdmitted_loadKey hinv s.engine)
  exact ⟨runCall_computes_cipher hidle (by decide) (isReduced_reduce26 _) hopen nofun,
    engine_runCall_of_opened hidle hopen rfl (by simp) t⟩

/-- Settles O51: `STDEC` opens a session on the inverse, which `FIN` ends with `EMPTY_INPUT` when no character came. -/
theorem decryptCallComputesTheInverseCipher : Obligations.DecryptCallComputesTheInverseCipher := by
  intro s t a b c d n hidle hn
  have hinv : isInvertible (keyOf a b c d) = true := (invert_isSome_iff _).mp (Option.isSome_iff_exists.mpr ⟨n, hn⟩)
  have hopen := replyOf_stdec_of_admitted (e := loadKey a b c d s.engine) hidle (keyAdmitted_loadKey hinv s.engine) hn
  refine ⟨fun hsome => ?computes, fun hnone => ?empty, engine_runCall_of_opened hidle hopen rfl (by simp) t⟩
  case computes => exact runCall_computes_cipher hidle (by decide) (isReduced_of_invert hn) hopen fun _ => hsome
  case empty =>
    subst hnone
    rw [runPseudo, runCall_of_opened hidle hopen, runWords_fin rfl, finResponse_of_empty rfl rfl]
    have herror := (runOk_nil.replicate_append 5).callResult_error (w := respond .emptyInput 0 0) (by decide)
    exact herror.1

/-! ### Rejected keys (R148, R185) -/

/-- In `IDLE` the invariants leave nothing but the key to tell the registers from those after reset. -/
theorem eq_reset_of_idle {e : Engine} (hinv : EngineInv e) (hidle : e.fsm = .idle) :
    e = { Engine.reset with k11 := e.k11, k12 := e.k12, k21 := e.k21, k22 := e.k22, kv := e.kv } := by
  obtain ⟨hmode, hhalf, hany, hfirst, h11, h12, h21, h22⟩ := hinv.idle_clear (by simp [hidle])
  cases e
  simp_all [Engine.reset]

theorem invalidateKey_of_idle {e : Engine} (hinv : EngineInv e) (hidle : e.fsm = .idle) :
    invalidateKey e = Engine.reset := by
  rw [eq_reset_of_idle hinv hidle]
  rfl

/-- Both keyed pseudo-commands are a call that begins with the four loads and one of the two openings (R86). -/
theorem runPseudo_keyed {p : Pseudo} {t : List Char8} {a b c d : KeyWord}
    (hp : p ∈ [Pseudo.encrypt t a b c d, .decrypt t a b c d]) :
    ∃ i ∈ [Instr.stenc, .stdec], ∀ s, runPseudo p s = runCall (keyWords a b c d ++ [encode i]) t s := by
  fin_cases hp
  · exact ⟨.stenc, by decide, fun _ => rfl⟩
  · exact ⟨.stdec, by decide, fun _ => rfl⟩

/-- Settles O52: the gate rejects the key for both openings, and nothing but the key was left to clear. -/
theorem rejectedCallsGiveNoOutput : Obligations.RejectedCallsGiveNoOutput := by
  intro s t a b c d p hidle hinv hkey hp
  obtain ⟨i, hi, hcall⟩ := runPseudo_keyed hp
  have hreply := replyOf_opening_of_rejected (e := loadKey a b c d s.engine) hi hidle ⟨rfl, hkey⟩
  have hstatus : rspSt (nonInvertible (loadKey a b c d s.engine)).word ≠ statusCode .ok := by
    rw [nonInvertible_word, rspSt_respond]
    decide
  obtain ⟨hresult, htext⟩ := (runOk_nil.replicate_append 4).callResult_error hstatus
  rw [List.append_nil] at hresult htext
  rw [hcall, runCall_of_rejected hidle hreply hstatus]
  refine ⟨?error, htext, (invalidateKey_loadKey a b c d s.engine).trans (invalidateKey_of_idle hinv hidle)⟩
  rw [hresult, nonInvertible_word, keyMatrix_loadKey, rspSt_respond, rspAux_respond, rspData_respond]

/-! ### `PREVIEW` in `IDLE` (R189) -/

theorem replyOf_stprv_of_idle {e : Engine} (hidle : e.fsm = .idle) :
    replyOf .stprv e = answerOk (openSession .prv e) 0 := by
  rw [replyOf_stprv, whenIdle_idle hidle]

/-- A preview in `IDLE` opens its session, and goes on with its text. -/
theorem runPseudo_preview_of_idle {s : State} (hidle : s.engine.fsm = .idle) (t : List Char8) :
    runPseudo (.preview t) s =
      ((runWords (bodyWords t) { s with engine := openSession .prv s.engine, rsp := none }).1,
        respond .ok 0 0 :: (runWords (bodyWords t) { s with engine := openSession .prv s.engine, rsp := none }).2) :=
  runWords_of_replyOf (replyOf_stprv_of_idle hidle) (bodyWords t)

/-- Settles O53: a `PRV` session puts out its pairs as they are, and its end leaves the key. -/
theorem previewCallReturnsTheDigitPairs : Obligations.PreviewCallReturnsTheDigitPairs := by
  intro s t hidle
  rw [runPseudo_preview_of_idle hidle]
  refine ⟨?pairs, ?engine⟩
  case pairs =>
    have hok := runOk_bodyWords t (s := { s with engine := openSession .prv s.engine, rsp := none }) rfl nofun
    rw [sessionPairs_of_empty rfl, funext (emitted_prv (e := openSession .prv s.engine) rfl)] at hok
    exact hok.cons_silent.callResult_eq
  case engine =>
    rw [engine_runWords_bodyWords t rfl, endCall_eq]
    rfl

/-! ### Calls outside `IDLE` (`30_encoding.md` R86) -/

/-- A run of words that all get the same answer and change nothing. -/
theorem runWords_turnedAway {s : State} {r : RspWord} {ws : List CmdWord} (hws : ws ≠ [])
    (hturned : ∀ w ∈ ws, wordReply w s.engine = { engine := s.engine, word := r }) :
    runWords ws s = ({ s with rsp := none }, List.replicate ws.length r) := by
  induction ws generalizing s with
  | nil => exact absurd rfl hws
  | cons w ws ih =>
    obtain ⟨hw, hrest⟩ := List.forall_mem_cons.mp hturned
    rw [runWords_cons, hw]
    by_cases hend : ws = []
    · subst hend
      rfl
    · rw [ih (s := { s with rsp := none }) hend hrest]
      rfl

/-- What a command does on any machine with these registers is its reply. -/
theorem replyOf_of_exec {i : Instr} {e e' : Engine} {w : RspWord}
    (hexec : exec i { engine := e, rsp := none, host := [] } = .next { engine := e', rsp := some w, host := [] }) :
    replyOf i e = { engine := e', word := w } := by
  rw [replyOf, hexec]
  rfl

/-- The word of a command that is legal in `IDLE` only, in `RUN`. -/
theorem wordReply_of_run {i : Instr} {e : Engine} (hrun : e.fsm = .run) (hlegal : legalOnlyInIdle i) :
    wordReply (encode i) e = { engine := e, word := respond .badState 0 0 } := by
  obtain ⟨hturned, -⟩ := hlegal { engine := e, rsp := none, host := [] }
  rw [wordReply_encode]
  exact replyOf_of_exec (hturned hrun)

theorem wordReply_of_fault {i : Instr} {e : Engine} (hfault : e.fsm = .fault) (hrdsr : i ≠ .rdsr) :
    wordReply (encode i) e = { engine := e, word := respond .internalInconsistency 0 0 } := by
  rw [wordReply_encode]
  exact replyOf_of_exec (exec_of_fault (s := { engine := e, rsp := none, host := [] }) hfault hrdsr)

/-- The opening words of a keyed call are those of commands legal in `IDLE` only. -/
theorem legalOnlyInIdle_of_mem_opening {i : Instr} (hi : i ∈ [Instr.stenc, .stdec]) {a b c d : KeyWord} :
    ∀ w ∈ keyWords a b c d ++ [encode i], ∃ j, w = encode j ∧ j ≠ .rdsr ∧ legalOnlyInIdle j := by
  have hopening : i ≠ .rdsr ∧ legalOnlyInIdle i := by
    fin_cases hi
    · exact ⟨nofun, legalOnlyInIdle_of_replyOf replyOf_stenc⟩
    · exact ⟨nofun, legalOnlyInIdle_of_replyOf replyOf_stdec⟩
  simp only [keyWords, List.cons_append, List.nil_append, List.forall_mem_cons]
  exact ⟨⟨_, rfl, nofun, legalOnlyInIdle_of_replyOf (replyOf_ldk11 a)⟩,
    ⟨_, rfl, nofun, legalOnlyInIdle_of_replyOf (replyOf_ldk12 b)⟩,
    ⟨_, rfl, nofun, legalOnlyInIdle_of_replyOf (replyOf_ldk21 c)⟩,
    ⟨_, rfl, nofun, legalOnlyInIdle_of_replyOf (replyOf_ldk22 d)⟩, ⟨_, rfl, hopening⟩, nofun⟩

/-- A keyed call whose opening words are all turned away alike stops after them. -/
theorem runCall_of_turnedAway {s : State} {a b c d : KeyWord} {i : Instr} {r : RspWord} (t : List Char8)
    (hr : rspSt r ≠ statusCode .ok)
    (hturned : ∀ w ∈ keyWords a b c d ++ [encode i], wordReply w s.engine = { engine := s.engine, word := r }) :
    runCall (keyWords a b c d ++ [encode i]) t s = ({ s with rsp := none }, List.replicate 5 r) := by
  have hopening := runWords_turnedAway (List.append_ne_nil_of_right_ne_nil _ (List.cons_ne_nil _ _)) hturned
  have hlast : (runWords (keyWords a b c d ++ [encode i]) s).2.getLast?.map rspSt ≠ some (statusCode .ok) := by
    rw [hopening]
    exact fun h => hr (Option.some.inj h)
  rw [runCall_of_stop t hlast, hopening]
  rfl

/-- The words of a text and `FIN` are `PUTC`s and a `FIN`. -/
theorem mem_bodyWords {t : List Char8} {w : CmdWord} (hw : w ∈ bodyWords t) : ∃ i, w = encode i ∧ i ≠ .rdsr := by
  rcases List.mem_append.mp hw with hputc | hfin
  · obtain ⟨ch, -, rfl⟩ := List.mem_map.mp hputc
    exact ⟨.putc ch, rfl, nofun⟩
  · exact ⟨.fin, List.mem_singleton.mp hfin, nofun⟩

theorem length_bodyWords (t : List Char8) : (bodyWords t).length = t.length + 1 := by
  rw [bodyWords, textWords, List.length_append, List.length_map, List.length_singleton]

/-- Settles O56: what is turned away changes nothing; in `RUN` the text and `FIN` of a preview end the open session. -/
theorem callsOutsideIdleIssueTheirExpansion : Obligations.CallsOutsideIdleIssueTheirExpansion := by
  refine ⟨fun s t a b c d p hp => ?keyed, fun s t => ⟨fun hrun => ?previewRun, fun hfault => ?previewFault⟩⟩
  case keyed =>
    obtain ⟨i, hi, hcall⟩ := runPseudo_keyed hp
    rw [hcall]
    refine ⟨fun hrun => ?run, fun hfault => ?fault⟩
    case run =>
      refine runCall_of_turnedAway t (by decide) fun w hw => ?_
      obtain ⟨j, rfl, -, hlegal⟩ := legalOnlyInIdle_of_mem_opening hi w hw
      exact wordReply_of_run hrun hlegal
    case fault =>
      refine runCall_of_turnedAway t (by decide) fun w hw => ?_
      obtain ⟨j, rfl, hrdsr, -⟩ := legalOnlyInIdle_of_mem_opening hi w hw
      exact wordReply_of_fault hfault hrdsr
  case previewRun =>
    have hrest : runPseudo (.preview t) s =
        ((runWords (bodyWords t) s).1, respond .badState 0 0 :: (runWords (bodyWords t) s).2) := by
      rw [runPseudo_preview, runWords_cons, wordReply_of_run hrun (legalOnlyInIdle_of_replyOf replyOf_stprv),
        runWords_take (bodyWords_ne_nil t)]
    refine ⟨hrest, ?length, ?engine⟩
    case length => rw [hrest, List.length_cons, runWords_length, length_bodyWords]
    case engine => rw [hrest, engine_runWords_bodyWords t hrun, endCall_eq]
  case previewFault =>
    rw [runPseudo_preview, runWords_turnedAway (List.cons_ne_nil _ _) (r := respond .internalInconsistency 0 0),
      List.length_cons, length_bodyWords]
    refine List.forall_mem_cons.mpr ⟨wordReply_of_fault hfault nofun, fun w hw => ?_⟩
    obtain ⟨i, rfl, hrdsr⟩ := mem_bodyWords hw
    exact wordReply_of_fault hfault hrdsr

end Sys2Proof.Machine
end

section
/-! Two calls (`44_cipher_engine.md` R186, R192). A call's responses depend on the registers it starts from through what
its opening leaves: a keyed call overwrites the key, and a preview does not look at it (`replyOf_putc_invalidateKey`).
Decryption undoes encryption because the text that a call puts out encodes to the transformed pairs again
(`encodeText_flatMap_decodePair`), and the two transforms are inverse on digits (`transform_transform`). -/

namespace Sys2Proof.Machine

open Sys2Proof.Config (padDigit)

/-! ### Calls are independent (R186) -/

/-- The responses of a run depend on the registers alone. -/
theorem runWords_congr {s s' : State} (h : s.engine = s'.engine) (ws : List CmdWord) :
    (runWords ws s).2 = (runWords ws s').2 := by
  induction ws generalizing s s' with
  | nil => rfl
  | cons w ws ih =>
    rw [runWords_cons, runWords_cons, h]
    exact congrArg (List.cons _) (ih rfl)

/-- A call whose opening gets the same responses and leaves the same registers gets the same responses. -/
theorem runCall_congr {opening : List CmdWord} {s s' : State} (hrsp : (runWords opening s).2 = (runWords opening s').2)
    (hengine : (runWords opening s).1.engine = (runWords opening s').1.engine) (t : List Char8) :
    (runCall opening t s).2 = (runCall opening t s').2 := by
  by_cases hok : (runWords opening s).2.getLast?.map rspSt = some (statusCode .ok)
  · rw [runCall_of_ok t hok, runCall_of_ok t (hrsp ▸ hok), runWords_append, runWords_append, hrsp,
      runWords_congr hengine]
  · rw [runCall_of_stop t hok, runCall_of_stop t (hrsp ▸ hok), hrsp]

/-- Loading a key leaves nothing of the one that was there. -/
theorem loadKey_congr {e e' : Engine} (h : invalidateKey e = invalidateKey e') (a b c d : KeyWord) :
    loadKey a b c d e = loadKey a b c d e' :=
  calc loadKey a b c d e
      = loadKey a b c d (invalidateKey e) := rfl
    _ = loadKey a b c d (invalidateKey e') := by rw [h]
    _ = loadKey a b c d e' := rfl

/-- `PUTC` in a session does not look at the key. -/
theorem replyOf_putc_invalidateKey (ch : Char8) {e : Engine} (hrun : e.fsm = .run) :
    replyOf (.putc ch) (invalidateKey e) =
      { engine := invalidateKey (replyOf (.putc ch) e).engine, word := (replyOf (.putc ch) e).word } := by
  have hrun' : (invalidateKey e).fsm = .run := hrun
  cases hch : isLetter ch with
  | false => rw [replyOf_putc_of_not_letter hrun hch, replyOf_putc_of_not_letter hrun' hch]; rfl
  | true =>
    cases hhalf : e.half with
    | false => rw [replyOf_putc_of_first hrun hch hhalf, replyOf_putc_of_first hrun' hch hhalf]; rfl
    | true => rw [replyOf_putc_of_second hrun hch hhalf, replyOf_putc_of_second hrun' hch hhalf]; rfl

/-- Nor does the answer of `FIN`. -/
theorem finResponse_invalidateKey (e : Engine) : finResponse (invalidateKey e) = finResponse e := by
  by_cases hnone : e.mode = .dec ∧ e.anychar = false
  · obtain ⟨hdec, hnone⟩ := hnone
    rw [finResponse_of_empty hdec hnone, finResponse_of_empty (e := invalidateKey e) hdec hnone]
  · cases hhalf : e.half with
    | false => rw [finResponse_of_even hnone hhalf, finResponse_of_even (e := invalidateKey e) hnone hhalf]
    | true =>
      rw [finResponse_of_odd hnone hhalf, finResponse_of_odd (e := invalidateKey e) hnone hhalf]
      rfl

/-- Sessions that differ in the key only answer a text and `FIN` alike. -/
theorem runWords_bodyWords_congr {s s' : State} (t : List Char8) (hrun : s.engine.fsm = .run)
    (h : invalidateKey s.engine = invalidateKey s'.engine) :
    (runWords (bodyWords t) s).2 = (runWords (bodyWords t) s').2 := by
  induction t generalizing s s' with
  | nil =>
    have hrun' : s'.engine.fsm = .run := (congrArg Engine.fsm h).symm.trans hrun
    rw [runWords_fin hrun, runWords_fin hrun', ← finResponse_invalidateKey, h, finResponse_invalidateKey]
  | cons ch t ih =>
    have hrun' : s'.engine.fsm = .run := (congrArg Engine.fsm h).symm.trans hrun
    have hreply := (replyOf_putc_invalidateKey ch hrun).symm.trans
      ((congrArg (replyOf (.putc ch)) h).trans (replyOf_putc_invalidateKey ch hrun'))
    obtain ⟨hengine, hword⟩ := Reply.mk.inj hreply
    obtain ⟨first, half, hframe⟩ := replyOf_putc_frame ch hrun
    rw [bodyWords_cons, runWords_of_replyOf rfl, runWords_of_replyOf rfl, hword]
    refine congrArg (List.cons _) (ih ?_ hengine)
    rw [hframe]
    exact hrun

/-- Settles O55: in `IDLE` the invariants leave only the key to differ. -/
theorem callsAreIndependent : Obligations.CallsAreIndependent := by
  intro s s' t a b c d p hidle hidle' hinv hinv' hp
  have hsame : invalidateKey s.engine = invalidateKey s'.engine :=
    (invalidateKey_of_idle hinv hidle).trans (invalidateKey_of_idle hinv' hidle').symm
  have hkind : p ∈ [Pseudo.encrypt t a b c d, .decrypt t a b c d] ∨ p = .preview t := by
    simpa [or_assoc] using hp
  rcases hkind with hkeyed | rfl
  · obtain ⟨i, -, hcall⟩ := runPseudo_keyed hkeyed
    have hopening := runWords_opening (i := i) (a := a) (b := b) (c := c) (d := d) hidle rfl
    have hopening' := runWords_opening (i := i) (a := a) (b := b) (c := c) (d := d) hidle' rfl
    rw [loadKey_congr hsame] at hopening
    rw [hcall, hcall]
    exact runCall_congr (by rw [hopening, hopening']) (by rw [hopening, hopening']) t
  · rw [runPseudo_preview_of_idle hidle, runPseudo_preview_of_idle hidle']
    exact congrArg (List.cons _) (runWords_bodyWords_congr t rfl (congrArg (openSession .prv) hsame))

/-! ### Texts that a call puts out -/

theorem letterOf_isLetter (d : Digit) : isLetter (letterOf d) = true := by
  rw [isLetter_iff, letterOf_toNat]
  omega

/-- A digit's letter is read back as the digit. -/
theorem digitOf_letterOf {d : Digit} (h : d.toNat ≤ 25) : digitOf (letterOf d) = d := by
  apply BitVec.eq_of_toNat_eq
  rw [digitOf_toNat (letterOf_isLetter d), letterOf_toNat]
  split <;> omega

/-- Pairs of digits written out are grouped into the same pairs. -/
theorem pairUp_flatMap (l : List DigitPair) : pairUp (l.flatMap fun p => [p.1, p.2]) = l := by
  induction l with
  | nil => rfl
  | cons p l ih => rw [List.flatMap_cons, List.cons_append, List.cons_append, List.nil_append, pairUp, ih]

/-- A pair of integers in the 5-bit registers of digits. -/
def digitPair (w : Int × Int) : DigitPair := (residue5 w.1, residue5 w.2)

/-- A pair whose elements are residues. -/
def IsResiduePair (w : Int × Int) : Prop := (0 ≤ w.1 ∧ w.1 ≤ 25) ∧ (0 ≤ w.2 ∧ w.2 ≤ 25)

/-- A text of decoded pairs encodes to these pairs. -/
theorem encodeText_flatMap_decodePair {l : List (Int × Int)} (hl : ∀ w ∈ l, IsResiduePair w) :
    encodeText (l.flatMap decodePair) = l.map digitPair := by
  have hletters : (l.flatMap decodePair).filter isLetter = l.flatMap decodePair := by
    refine List.filter_eq_self.mpr fun ch hch => ?_
    obtain ⟨w, -, hw⟩ := List.mem_flatMap.mp hch
    rcases List.mem_pair.mp hw with rfl | rfl <;> exact letterOf_isLetter _
  have hdigits : (l.flatMap decodePair).map digitOf = (l.map digitPair).flatMap fun p => [p.1, p.2] := by
    rw [List.map_flatMap, List.flatMap_map]
    refine List.flatMap_congr fun w hw => ?_
    obtain ⟨h1, h2⟩ := hl w hw
    simp [decodePair, digitPair, digitOf_letterOf (residue5_toNat_le h1), digitOf_letterOf (residue5_toNat_le h2)]
  rw [encodeText, hletters, hdigits, pairUp_flatMap]

/-- The cipher text encodes to the transformed pairs. -/
theorem encodeText_cipherText (m : Mat2) (t : List Char8) :
    encodeText (cipherText m t) = (encodeText t).map fun p => digitPair (transform m (pairVector p)) := by
  have hpairs : cipherText m t = ((encodeText t).map fun p => transform m (pairVector p)).flatMap decodePair := by
    rw [List.flatMap_map]
    rfl
  rw [hpairs, encodeText_flatMap_decodePair, List.map_map]
  · rfl
  · intro w hw
    obtain ⟨p, -, rfl⟩ := List.mem_map.mp hw
    exact transform_bounds m (pairVector p)

/-- The digits of an encoded text are residues: those of its letters, and the padding. -/
theorem encodeText_le {t : List Char8} {p : DigitPair} (hp : p ∈ encodeText t) : p.1.toNat ≤ 25 ∧ p.2.toNat ≤ 25 := by
  have hdigit (d : Digit) (hd : d ∈ [p.1, p.2]) : d.toNat ≤ 25 := by
    have hmem : d ∈ (encodeText t).flatMap fun p => [p.1, p.2] := List.mem_flatMap.mpr ⟨p, hp, hd⟩
    rw [encodeText, flatMap_pairUp, List.mem_append] at hmem
    rcases hmem with hletter | hpad
    · obtain ⟨ch, hch, rfl⟩ := List.mem_map.mp hletter
      exact digitOf_le (List.mem_filter.mp hch).2
    · split at hpad
      · rw [List.mem_singleton.mp hpad]
        decide
      · cases hpad
  exact ⟨hdigit p.1 (by simp), hdigit p.2 (by simp)⟩

/-! ### The two transforms are inverse (R192) -/

theorem pairVector_digitPair {w : Int × Int} (h : IsResiduePair w) : pairVector (digitPair w) = w := by
  obtain ⟨⟨h1, h1'⟩, h2, h2'⟩ := h
  rw [pairVector, digitPair, digitValue_residue5 h1 h1', digitValue_residue5 h2 h2']

/-- Transforming by two matrices is transforming by their product. -/
theorem transform_transform (n k : Mat2) (v : Int × Int) : transform n (transform k v) = transform (n.mul k) v := by
  have hrow (a b : Int) :
      cmod26 (a * cmod26 (k.a * v.1 + k.b * v.2) + b * cmod26 (k.c * v.1 + k.d * v.2)) =
        cmod26 ((a * k.a + b * k.c) * v.1 + (a * k.b + b * k.d) * v.2) := by
    rw [cmod26_eq_cmod26_iff]
    calc a * cmod26 (k.a * v.1 + k.b * v.2) + b * cmod26 (k.c * v.1 + k.d * v.2)
        ≡ a * (k.a * v.1 + k.b * v.2) + b * (k.c * v.1 + k.d * v.2) [ZMOD 26] :=
          ((cmod26_modEq _).mul_left a).add ((cmod26_modEq _).mul_left b)
      _ = (a * k.a + b * k.c) * v.1 + (a * k.b + b * k.d) * v.2 := by ring
  exact Prod.ext (hrow n.a n.b) (hrow n.c n.d)

/-- The identity transforms a pair of residues to itself. -/
theorem transform_of_isOne {m : Mat2} {v : Int × Int} (hm : m.IsOne) (hv : IsResiduePair v) : transform m v = v := by
  obtain ⟨ha, hb, hc, hd⟩ := hm
  obtain ⟨⟨h1, h1'⟩, h2, h2'⟩ := hv
  rw [← transform_reduce26, reduce26, ha, hb, hc, hd]
  refine Prod.ext ?_ ?_
  · exact (congrArg cmod26 (by ring)).trans (cmod26_of_residue h1 h1')
  · exact (congrArg cmod26 (by ring)).trans (cmod26_of_residue h2 h2')

/-- Decrypting a pair that was encrypted gives the pair. -/
theorem transform_invert {k n : Mat2} (hn : invert k = some n) {v : Int × Int} (hv : IsResiduePair v) :
    transform n (transform (reduce26 k) v) = v := by
  obtain ⟨x, h⟩ := isScaledAdjugate_of_invert hn
  rw [transform_reduce26, transform_transform, transform_of_isOne h.mul_left_isOne hv]

theorem residue5_digitValue (d : Digit) : residue5 (digitValue d) = d := by
  rw [residue5, digitValue, Int.toNat_natCast, BitVec.ofNat_toNat, BitVec.setWidth_eq]

/-- The cipher of the inverse on the cipher of a key is the normalised text. -/
theorem cipherText_invert {k n : Mat2} (hn : invert k = some n) (t : List Char8) :
    cipherText n (cipherText (reduce26 k) t) = normalText t := by
  rw [← codecRoundTripIsTheNormalText, cipherText, encodeText_cipherText, List.flatMap_map]
  refine List.flatMap_congr fun p hp => ?_
  obtain ⟨h1, h2⟩ := encodeText_le hp
  have hv : IsResiduePair (pairVector p) := by
    simp only [IsResiduePair, pairVector, digitValue]
    omega
  rw [pairVector_digitPair (transform_bounds _ _), transform_invert hn hv, decodePair, pairVector,
    residue5_digitValue, residue5_digitValue]

/-! ### Decryption undoes encryption -/

theorem encodeText_eq_nil_iff (t : List Char8) : encodeText t = [] ↔ t.filter isLetter = [] := by
  rw [← List.length_eq_zero_iff, ← List.length_eq_zero_iff, encodeText, length_pairUp, List.length_map]
  omega

theorem cipherText_eq_nil_iff (m : Mat2) (t : List Char8) : cipherText m t = [] ↔ t.filter isLetter = [] := by
  rw [← encodeText_eq_nil_iff, cipherText]
  cases encodeText t with
  | nil => simp
  | cons p l => simp [decodePair]

/-- Settles O54: the text encrypted is the cipher text (`EncryptCallComputesTheCipher`), whose decryption is its inverse
cipher (`DecryptCallComputesTheInverseCipher`), or `EMPTY_INPUT` where there was no letter. -/
theorem decryptionUndoesEncryption : Obligations.DecryptionUndoesEncryption := by
  intro s s' t u a b c d hidle hidle' hinv hu
  obtain ⟨n, hn⟩ := invert_of_isInvertible hinv
  obtain ⟨hencrypt, -⟩ := encryptCallComputesTheCipher s t a b c d hidle hinv
  obtain ⟨hdecrypt, hempty, -⟩ := decryptCallComputesTheInverseCipher s' u a b c d n hidle' hn
  obtain rfl : cipherText (reduce26 (keyOf a b c d)) t = u := CallResult.ok.inj (hencrypt.symm.trans hu)
  refine ⟨fun hletter => ?roundTrip, fun hnone => ?noLetter⟩
  case roundTrip => rw [hdecrypt (mt (cipherText_eq_nil_iff _ t).mp hletter), cipherText_invert hn]
  case noLetter =>
    have hnil := (cipherText_eq_nil_iff (reduce26 (keyOf a b c d)) t).mpr hnone
    exact ⟨hnil, hempty hnil⟩

end Sys2Proof.Machine
end
